-- ==== Sys2Proof/Word.lean ====
section
/-! DEFINITION. The data types the block computes on (spec/00_scope.md R11, R12; spec/30_encoding.md R70). -/

namespace Sys2Proof

/-- An element of GF(2) (R11, R12): `true` is 1, addition is exclusive or, multiplication is `and`. -/
abbrev Bit := Bool

/-- A vector of bits, element 0 first (R11). -/
abbrev Vec := List Bit

/-- A matrix: its rows, in order (R11). A matrix with 0 rows or 0 columns is empty and well formed. -/
abbrev Matrix := List Vec

/-- One character of an ENCODE word: an 8-bit code (spec/30_encoding.md R74). -/
abbrev Char8 := BitVec 8

/-- The request descriptor, 8 bits, bit 7 the most significant (spec/30_encoding.md R71). -/
abbrev Desc := BitVec 8

end Sys2Proof
end

