-- ==== Sys2Proof/Syntax.lean ====
section
/-! DEFINITION. Requests, the instructions they stand for, and responses (spec/30_encoding.md R70 to R80,
spec/60_exceptions.md R200), with the lanes of the physical port (R81). -/

namespace Sys2Proof

/-- The five requests of spec/opcode_table.json, each with the operands it names (spec/30_encoding.md R72,
R74 to R76). An operand an operation does not name is no part of the instruction (R77). -/
inductive Instr where
  /-- ENCODE (spec/41_encoder.md R130). -/
  | encode (word : List Char8)
  /-- CHECK (spec/42_syndrome_decoder.md R154). -/
  | check (rows : List Vec)
  /-- CORRECT (spec/42_syndrome_decoder.md R155). -/
  | correct (rows : List Vec)
  /-- DECODE (spec/42_syndrome_decoder.md R157). -/
  | decode (rows : List Vec)
  /-- BITFLIP (spec/43_bitflip.md R190). -/
  | bitflip (rows : List Vec) (pos : Int)
  deriving DecidableEq, Repr

/-- The request record (spec/30_encoding.md R70). `pos` is a signed integer of no fixed width (R76). -/
structure Request where
  desc : Desc
  word : List Char8 := []
  rows : List Vec := []
  pos : Int := 0
  deriving DecidableEq, Repr, Inhabited

/-- The error kinds (spec/60_exceptions.md R200), in the order of their codes. -/
inductive ErrorKind where
  /-- Construct only (R205); never in a response. -/
  | invalidParameter
  | invalidWordLength
  | invalidCodewordLength
  | invalidWordAlphabet
  | multiRowInput
  | positionOutOfRange
  | negativePosition
  /-- A branch of CORRECT and DECODE that no input reaches (spec/42_syndrome_decoder.md R156). -/
  | uncorrectableError
  /-- A reserved descriptor (R207). -/
  | illegalOperation
  deriving DecidableEq, Repr, Inhabited

/-- The `status` field of a response (spec/30_encoding.md R80). -/
inductive Status where
  | ok
  | error (kind : ErrorKind)
  deriving DecidableEq, Repr, Inhabited

/-- The `corr` field of a response (spec/30_encoding.md R79); its reserved code `11` is no value. -/
inductive Corr where
  | none
  | valid
  | corrected
  deriving DecidableEq, Repr, Inhabited

/-- The response record (spec/30_encoding.md R70); a field that is not set has the default of R78. -/
structure Response where
  status : Status := .ok
  flag : Bit := false
  corr : Corr := .none
  index : Nat := 0
  diag : Bit := false
  vec : Vec := []
  deriving DecidableEq, Repr, Inhabited

/-- The request lanes of the physical port (spec/30_encoding.md R81). A lane whose width is a parameter is
the natural number its wires read as, bit 0 the least significant. -/
structure PortRequest where
  desc : Desc
  wordLen : Nat := 0
  word : Nat := 0
  rows : BitVec 2 := 0
  cwLen : Nat := 0
  cw : Nat := 0
  pos : Nat := 0
  deriving DecidableEq, Repr, Inhabited

/-- The response lanes of the physical port (spec/30_encoding.md R81). -/
structure PortResponse where
  status : BitVec 4
  flag : Bit
  corr : BitVec 2
  index : Nat
  diag : Bit
  len : Nat
  vec : Nat
  deriving DecidableEq, Repr, Inhabited

end Sys2Proof
end

