-- ==== Sys2Proof/Decode.lean ====
section
/-! DEFINITION. The descriptor decoder and the encoder (spec/30_encoding.md R71 to R73, spec/opcode_table.json). -/

namespace Sys2Proof

/-- Why a descriptor is reserved (spec/30_encoding.md R73). Every reserved descriptor gets the same response. -/
inductive Reserved where
  /-- `desc[7:3] ≠ 00000`. -/
  | reservedField
  /-- `desc[2:0]` is `000`, `110` or `111`. -/
  | reservedOp
  deriving DecidableEq, Repr

/-- `desc[7:3]`, the field `rsv` (R71). -/
def rsvField (desc : Desc) : BitVec 5 := desc.extractLsb' 3 5

/-- `desc[2:0]`, the field `op` (R71). -/
def opField (desc : Desc) : BitVec 3 := desc.extractLsb' 0 3

/-- The decoder (R73): the instruction a request asks for, with the operands it names and no other (R77);
or the reason its descriptor is reserved. Total on every request. -/
def decode (r : Request) : Except Reserved Instr :=
  if rsvField r.desc ≠ 0b00000#5 then .error .reservedField
  else match opField r.desc with
    | 0b001#3 => .ok (.encode r.word)
    | 0b010#3 => .ok (.check r.rows)
    | 0b011#3 => .ok (.correct r.rows)
    | 0b100#3 => .ok (.decode r.rows)
    | 0b101#3 => .ok (.bitflip r.rows r.pos)
    | _ => .error .reservedOp

/-- The descriptor of each instruction (R72). -/
def descriptor : Instr → Desc
  | .encode _ => 0b00000001#8
  | .check _ => 0b00000010#8
  | .correct _ => 0b00000011#8
  | .decode _ => 0b00000100#8
  | .bitflip _ _ => 0b00000101#8

/-- The encoder: the request that asks for an instruction, its unused operands empty (R77). -/
def encode (i : Instr) : Request :=
  match i with
  | .encode word => { desc := descriptor i, word := word }
  | .check rows => { desc := descriptor i, rows := rows }
  | .correct rows => { desc := descriptor i, rows := rows }
  | .decode rows => { desc := descriptor i, rows := rows }
  | .bitflip rows pos => { desc := descriptor i, rows := rows, pos := pos }

/-- The request a bare word of the opcode table stands for: the descriptor, and operands that are empty, since
the table gives them no bits (R70, R71). -/
def requestOfWord (w : Nat) : Request := { desc := BitVec.ofNat 8 w }

/-- What the decoder reads from a row of the opcode table. An encoding is exactly one 8-bit descriptor (R71). -/
def decodeTableWord (nbits w : Nat) : Option Instr :=
  if nbits = 8 then (decode (requestOfWord w)).toOption else none

end Sys2Proof
end

