-- ==== Sys2Proof/Machine/Gf2.lean ====
section
/-! DEFINITION. Vectors and matrices over GF(2) (spec/00_scope.md R11, R12), and the packing of vectors and
characters into the bits of a bus (spec/20_memory.md R55). -/

namespace Sys2Proof.Machine

/-- `bit(x, i)`: bit `i` of `x`, bit 0 least significant (R11). -/
def bit (x i : Nat) : Bit := x / 2 ^ i % 2 == 1

/-- The GF(2) sum of a finite sequence of bits; over an empty one it is 0 (R12). -/
def xorSum (bits : List Bit) : Bit := bits.foldr xor false

/-- Element-wise GF(2) sum of two vectors of one length. -/
def xorVec (v u : Vec) : Vec := List.zipWith xor v u

/-- The GF(2) inner product of two vectors of one length (R12). -/
def dot (v u : Vec) : Bit := xorSum (List.zipWith and v u)

/-- `zeros(j)` (R11). -/
def zeros (j : Nat) : Vec := List.replicate j false

/-- `flip(v, j)`: element `j` replaced by its sum with 1, every other element unchanged (R11). -/
def flip (v : Vec) (j : Nat) : Vec := v.modify j (xor · true)

/-- `X[a][b]` (R11), and 0 outside the matrix. -/
def entry (X : Matrix) (a b : Nat) : Bit := (X.getD a []).getD b false

/-- `col(X, b)`: column `b`, one element for each row (R11). -/
def col (X : Matrix) (b : Nat) : Vec := X.map (·.getD b false)

/-- The product of a row vector and a matrix of `cols` columns (R12). -/
def vecMul (w : Vec) (X : Matrix) (cols : Nat) : Vec := (List.range cols).map fun b => dot w (col X b)

/-- The product of a matrix and a vector taken as a column (R12). -/
def mulVec (X : Matrix) (v : Vec) : Vec := X.map fun row => dot row v

/-- The transpose of a matrix of `cols` columns. -/
def transpose (X : Matrix) (cols : Nat) : Matrix := (List.range cols).map (col X)

/-- Rows of `X`, then rows of `Y`. -/
def vstack (X Y : Matrix) : Matrix := X ++ Y

/-- Each row of `X` followed by the same row of `Y`. -/
def hcat (X Y : Matrix) : Matrix := List.zipWith (· ++ ·) X Y

/-- The `k × k` identity (spec/40_generator_matrix.md R105). -/
def identity (k : Nat) : Matrix := (List.range k).map fun a => (List.range k).map fun b => a == b

/-- The natural number whose bit `i` is element `i` (spec/20_memory.md R55). On a syndrome this is the syndrome
value `σ(s)`, the sum of the `s[i] · 2^i` (spec/00_scope.md glossary). -/
def packBits (v : Vec) : Nat := v.foldr (fun b acc => b.toNat + 2 * acc) 0

/-- The vector on the low `len` bits of a bus: element `i` is bus bit `i` (spec/20_memory.md R55). -/
def unpackBits (len bus : Nat) : Vec := (List.range len).map (bit bus)

/-- Characters on byte lanes: character `i` on bus bits `8i+7 .. 8i` (spec/20_memory.md R55). -/
def packChars (w : List Char8) : Nat := w.foldr (fun c acc => c.toNat + 256 * acc) 0

/-- The word on the low `len` byte lanes of a bus (spec/30_encoding.md R83). -/
def unpackChars (len bus : Nat) : List Char8 := (List.range len).map fun i => BitVec.ofNat 8 (bus / 2 ^ (8 * i))

/-- `sext_w(f)`: the low `w` bits of `f` read as two's complement (spec/00_scope.md R11). -/
def sext (w f : Nat) : Int := if bit f (w - 1) && w != 0 then (f % 2 ^ w : Nat) - (2 ^ w : Nat) else (f % 2 ^ w : Nat)

/-- The `w`-bit two's-complement field that holds `x`, where it fits. -/
def twosComplement (w : Nat) (x : Int) : Nat := (x % (2 ^ w : Nat)).toNat

/-- `⌈log2 x⌉` for `x ≥ 1` (spec/30_encoding.md R81). -/
def clog2 (x : Nat) : Nat := if x ≤ 1 then 0 else Nat.log2 (x - 1) + 1

end Sys2Proof.Machine
end

