-- ==== Sys2Proof/Machine/Construct.lean ====
section
/-! DEFINITION. Construct: the engine value and its tables (spec/40_generator_matrix.md; spec/10_state.md R20 to R23).
The sub-block `hamming_generator_matrix`. -/

namespace Sys2Proof.Machine

/-- The engine value (spec/10_state.md R20): the whole architectural state of the block. Each field has the
spec's own name; shapes and contents are those of R21 and R23. -/
structure Engine where
  m : Nat
  n : Nat
  k : Nat
  dataPos : List Nat
  parPos : List Nat
  R : List (List Nat)
  E : Matrix
  A : Matrix
  G : Matrix
  P : Matrix
  deriving DecidableEq, Repr

/-- `n = 2^m − 1` (spec/10_state.md R21). -/
def codeLength (m : Nat) : Nat := 2 ^ m - 1

/-- `k = n − m` (spec/10_state.md R21). -/
def dataLength (m : Nat) : Nat := codeLength m - m

/-- The source's test of a position `p ≥ 1`: a power of two (R101). -/
def isParity (p : Nat) : Bool := p &&& (p - 1) == 0

/-- The positions `1..n`. -/
def positions (n : Nat) : List Nat := List.range' 1 n

/-- `dataPos` (R102). -/
def dataPositions (n : Nat) : List Nat := (positions n).filter fun p => !isParity p

/-- `parPos` (R103). -/
def parityPositions (n : Nat) : List Nat := (positions n).filter isParity

/-- `R[i]` (R104): the data-bit indices whose data position has bit `i` set. -/
def responsibilitySet (dataPos : List Nat) (k i : Nat) : List Nat :=
  (List.range k).filter fun j => bit (dataPos.getD j 0) i

/-- The responsibility map `R`, one entry for each parity bit (R104). -/
def responsibilityMap (dataPos : List Nat) (k m : Nat) : List (List Nat) :=
  (List.range m).map (responsibilitySet dataPos k)

/-- Row `i` of `A` (R106): the sum of the rows of `E` that a responsibility set names. -/
def parityRow (E : Matrix) (k : Nat) (set : List Nat) : Vec :=
  set.foldr (fun j acc => xorVec (E.getD j []) acc) (zeros k)

/-- The parity matrix `A` (R106). -/
def parityMatrix (E : Matrix) (k : Nat) (R : List (List Nat)) : Matrix := R.map (parityRow E k)

/-- `G`, the transpose of the vertical stack of `E` and `A` (R107). -/
def generatorMatrix (E A : Matrix) (k : Nat) : Matrix := transpose (vstack E A) k

/-- `P = [A | I_M]` (R108). -/
def checkMatrix (A : Matrix) (m : Nat) : Matrix := hcat A (identity m)

/-- `Engine(M)`: every table, in the order of R100. -/
def tables (m : Nat) : Engine :=
  let n := codeLength m
  let k := dataLength m
  let E := identity k
  let dataPos := dataPositions n
  let R := responsibilityMap dataPos k m
  let A := parityMatrix E k R
  { m, n, k, dataPos, parPos := parityPositions n, R, E, A,
    G := generatorMatrix E A k, P := checkMatrix A m }

/-- Construct (R100): the engine value, or `InvalidParameter` if and only if `M < 1`
(spec/60_exceptions.md R205). -/
def construct (M : Int) : Except ErrorKind Engine :=
  if M < 1 then .error .invalidParameter else .ok (tables M.toNat)

/-- The physical position of systematic index `c` (R110). A property of the code, not a reordering (R53). -/
def physPos (e : Engine) (c : Nat) : Nat := if c < e.k then e.dataPos.getD c 0 else e.parPos.getD (c - e.k) 0

/-- The systematic index of position `p`, by R112's formula. -/
def sysIndex (e : Engine) (p : Nat) : Nat := if isParity p then e.k + Nat.log2 p else p - Nat.log2 p - 2

/-- The constant output port `g_matrix`: bit `r·n + c` is `G[r][c]` (R115). -/
def gMatrixPort (e : Engine) : Nat := packBits e.G.flatten

/-- The constant output port `p_matrix`: bit `i·n + c` is `P[i][c]` (R115). -/
def pMatrixPort (e : Engine) : Nat := packBits e.P.flatten

end Sys2Proof.Machine
end

