-- ==== Sys2Proof/Machine/Flags.lean ====
section
/-! DEFINITION. The result fields: the CHECK flag, the correction outcome, the position-zero diagnostic
(spec/30_encoding.md R78, R79) and the codes of `status` and `corr` (spec/60_exceptions.md R200). -/

namespace Sys2Proof.Machine

/-- `syndrome(v) = P · vᵀ` (spec/42_syndrome_decoder.md R152). -/
def syndrome (e : Engine) (v : Vec) : Vec := mulVec e.P v

/-- The syndrome is zero: the CHECK flag (spec/42_syndrome_decoder.md R154). -/
def zeroSyndrome (e : Engine) (v : Vec) : Bool := syndrome e v == zeros e.m

/-- The least column of `P` equal to `s`, or none (spec/42_syndrome_decoder.md R153). -/
def findColumn (e : Engine) (s : Vec) : Option Nat := (List.range e.n).find? fun c => col e.P c == s

/-- The outcome of the correction stage: the codeword, `corr` and `index`. -/
structure Correction where
  vec : Vec
  corr : Corr
  index : Nat
  deriving DecidableEq, Repr

/-- The correction stage that CORRECT and DECODE share (spec/42_syndrome_decoder.md R155, R157). Its
`UncorrectableError` branch is kept as the spec asks, and no vector of length `n` reaches it (R156). -/
def correction (e : Engine) (v : Vec) : Except ErrorKind Correction :=
  if zeroSyndrome e v then .ok { vec := v, corr := .valid, index := 0 }
  else match findColumn e (syndrome e v) with
    | some j => .ok { vec := flip v j, corr := .corrected, index := j }
    | none => .error .uncorrectableError

/-- The position-zero diagnostic (spec/43_bitflip.md R191). -/
def positionZero (pos : Int) : Bit := pos == 0

/-- The codes of the error kinds (spec/60_exceptions.md R200). -/
def errorCode : ErrorKind → BitVec 4
  | .invalidParameter => 0x1#4
  | .invalidWordLength => 0x2#4
  | .invalidCodewordLength => 0x3#4
  | .invalidWordAlphabet => 0x4#4
  | .multiRowInput => 0x5#4
  | .positionOutOfRange => 0x6#4
  | .negativePosition => 0x7#4
  | .uncorrectableError => 0x8#4
  | .illegalOperation => 0x9#4

/-- The 4-bit `status` code (spec/60_exceptions.md R200). -/
def statusCode : Status → BitVec 4
  | .ok => 0x0#4
  | .error kind => errorCode kind

/-- The 2-bit `corr` code (spec/30_encoding.md R79). -/
def corrCode : Corr → BitVec 2
  | .none => 0b00#2
  | .valid => 0b01#2
  | .corrected => 0b10#2

end Sys2Proof.Machine
end

