-- ==== Sys2Proof/Machine/Operands.lean ====
section
/-! DEFINITION. The operand forms: the ENCODE word (spec/30_encoding.md R74), the codeword operand
(spec/42_syndrome_decoder.md R150, R151) and the BITFLIP position (spec/43_bitflip.md R190 to R192). -/

namespace Sys2Proof.Machine

/-- `'0'` and `'1'` are the only legal characters (spec/30_encoding.md R74). -/
def isWordChar (c : Char8) : Bool := c == 0x30#8 || c == 0x31#8

/-- The bit a legal character stands for (spec/41_encoder.md R130). -/
def charBit (c : Char8) : Bit := c == 0x31#8

/-- The data word: length first, then the alphabet (spec/41_encoder.md R130, spec/60_exceptions.md R204). -/
def dataWord (e : Engine) (word : List Char8) : Except ErrorKind Vec :=
  if word.length ≠ e.k then .error .invalidWordLength
  else if word.all isWordChar then .ok (word.map charBit) else .error .invalidWordAlphabet

/-- FormatCodeword (spec/42_syndrome_decoder.md R150). -/
def formatCodeword : List Vec → Except ErrorKind Vec
  | [] => .ok []
  | [row] => .ok row
  | _ :: _ :: _ => .error .multiRowInput

/-- RequireLength (spec/42_syndrome_decoder.md R151). -/
def requireLength (e : Engine) (v : Vec) : Except ErrorKind Vec :=
  if v.length ≠ e.n then .error .invalidCodewordLength else .ok v

/-- The codeword operand: formatted, then length-checked (spec/60_exceptions.md R204). -/
def codewordOperand (e : Engine) (rows : List Vec) : Except ErrorKind Vec :=
  match formatCodeword rows with
  | .error kind => .error kind
  | .ok v => requireLength e v

/-- The systematic index BITFLIP flips: `p − 1`, with position 0 taken as 1 (spec/43_bitflip.md R190, R192). -/
def flipIndex (e : Engine) (pos : Int) : Except ErrorKind Nat :=
  if pos > e.n then .error .positionOutOfRange
  else if pos < 0 then .error .negativePosition
  else .ok ((if pos = 0 then 1 else pos) - 1).toNat

end Sys2Proof.Machine
end

