-- ==== Sys2Proof/Config.lean ====
section
/-! DEFINITION. The open parameters of the block (spec/00_scope.md R9) and its one free value. -/

namespace Sys2Proof

/-- The parameter `M` of the block `State.reset` is elaborated with. DESIGN CHOICE, unsafe (log entry 2): the
spec leaves `M` open. Everything else in the model takes the engine value, and so `M`, from the state. -/
def Config.parityBits : Nat := 3

/-- The response to a request of a host that broke the handshake: any value (spec/93_implementation_defined.md
I7, spec/70_reset_and_hazards.md R234; log entry 8). No body: nothing can be proved about its values. -/
opaque Config.freeResponse : Nat → Response

/-- The parameters of a physical port (spec/00_scope.md R9): `lcap` is `LCAP`, the operand capacity in
elements; `posW` is `POS_W`, the width of the signed position field. An argument wherever it is used. -/
structure PortParams where
  lcap : Nat
  posW : Nat
  deriving DecidableEq, Repr

end Sys2Proof
end

