-- ==== Sys2Proof/Machine/State.lean ====
section
/-! DEFINITION. The machine's state (spec/10_state.md R20, spec/70_reset_and_hazards.md R230), its stops, and reset. -/

namespace Sys2Proof.Machine

/-- No request makes the block fault: every error is a response value (spec/60_exceptions.md R203). The type
has no constructor, so no step of the model can answer a fault. -/
inductive Fault where
  deriving DecidableEq, Repr

/-- Why the model gives no next state. -/
inductive Refusal where
  /-- An instruction without a meaning in `exec`. Safe. Nothing raises it: every arm of `exec` has a meaning. -/
  | notModelled (mnemonic : String)
  /-- Raised by the port's clock edge alone, for an accepted request with an operand longer than `LCAP`, which
  cannot be presented on the port (spec/93_implementation_defined.md I10, treatment `refuse`). Safe. -/
  | unpresentable
  deriving DecidableEq, Repr

/-- What the port accepted at a transfer. -/
inductive Accepted where
  | request (r : Request)
  /-- A request of a host that broke the handshake: it has no meaning (spec/70_reset_and_hazards.md R234, I7). -/
  | meaningless
  deriving DecidableEq, Repr

/-- The state: the engine value (R20), and what the transaction interface and the port hold between requests
(spec/70_reset_and_hazards.md R230; log entries 1 and 8). No response to a well presented request reads any
field but `engine` (spec/20_memory.md R59). -/
structure State where
  /-- The engine value; no operation writes it (spec/10_state.md R22). -/
  engine : Engine
  /-- Requests accepted and not yet answered, oldest first (R230, `request in flight`). -/
  pending : List Accepted
  /-- Responses produced and not yet taken by the host, oldest first (spec/20_memory.md R60). -/
  responses : List Response
  /-- The port output `req_ready` (spec/30_encoding.md R81, R230). -/
  reqReady : Bool
  /-- The request offered at the last edge and not accepted there, which its host must hold (R234): the record its
  lanes assemble to (spec/30_encoding.md R83), so bits that no operand reads are no part of it (spec/20_memory.md R55). -/
  standing : Option Request
  /-- Whether the host has changed or withdrawn a standing offer since reset (R234, I7). -/
  handshakeBroken : Bool
  /-- The model's own counter: which value of `Config.freeResponse` comes next (log entry 8). -/
  freeCount : Nat
  deriving DecidableEq, Repr

/-- A block after reset: the engine value, nothing outstanding, no response offered, `req_ready` low (R230). -/
def State.afterReset (e : Engine) : State :=
  { engine := e, pending := [], responses := [], reqReady := false, standing := none,
    handshakeBroken := false, freeCount := 0 }

/-- Elaboration with parameter `M` (spec/30_encoding.md R88, spec/60_exceptions.md R205): a block after reset,
or `InvalidParameter` and no block. -/
def State.elaborate (M : Int) : Except ErrorKind State := (construct M).map State.afterReset

/-- The machine right after reset, elaborated with `Config.parityBits` (log entry 2). -/
def State.reset : State := .afterReset (tables Config.parityBits)

end Sys2Proof.Machine
end

