-- ==== Sys2Proof/Machine/Ops.lean ====
section
/-! DEFINITION. The shared operations on the state: answering a request, raising an error (the block's only
exceptional event, spec/60_exceptions.md R200 to R203), taking the next request, and reset. -/

namespace Sys2Proof.Machine

/-- The response of an operation that raised an error: its kind in `status`, every other field at its default
(spec/00_scope.md R13, spec/60_exceptions.md R202, spec/30_encoding.md R78). -/
def errorResponse (kind : ErrorKind) : Response := { status := .error kind }

/-- The response of an operation that returned a response or raised an error. -/
def responseOf : Except ErrorKind Response → Response
  | .ok r => r
  | .error kind => errorResponse kind

/-- One request answered: its response, whole, after those already produced (spec/20_memory.md R58, R60).
Nothing else of the state changes (spec/10_state.md R22). -/
def State.answer (s : State) (r : Response) : State := { s with responses := s.responses ++ [r] }

/-- The oldest request waiting, and the state without it. -/
def takeRequest (s : State) : Option (Accepted × State) :=
  match s.pending with
  | [] => none
  | a :: rest => some (a, { s with pending := rest })

/-- A reserved descriptor: `IllegalOperation`, no operand read (spec/60_exceptions.md R207). -/
def answerReserved (s : State) : State := s.answer (errorResponse .illegalOperation)

/-- A request of a host that broke the handshake is answered with a free value (I7, log entry 8). -/
def answerMeaningless (s : State) : State :=
  { s.answer (Config.freeResponse s.freeCount) with freeCount := s.freeCount + 1 }

/-- A transfer into the block (spec/30_encoding.md R81): the request stands behind those already accepted, and no
offer stands any more. -/
def State.accept (s : State) (a : Accepted) : State := { s with pending := s.pending ++ [a], standing := none }

/-- A host that breaks the handshake has no defined result, and its requests have no meaning
(spec/70_reset_and_hazards.md R234): the unanswered ones lose theirs, and the block remembers it until reset
(log entry 8). -/
def loseMeaning (s : State) : State :=
  { s with pending := s.pending.map fun _ => .meaningless, handshakeBroken := true }

/-- `rst` (spec/70_reset_and_hazards.md R230, R231): what was accepted and not answered is dropped, no response
is offered (log entry 6), `req_ready` is low; the engine value stays. DESIGN CHOICE (log entry 15): `req_ready` stays
low after the edge until an edge without `rst`, so the open number of cycles before it rises (I5) is at least 1. -/
def applyReset (s : State) : State :=
  { s with pending := [], responses := [], reqReady := false, standing := none, handshakeBroken := false }

end Sys2Proof.Machine
end

