-- ==== Sys2Proof/Machine/Bitflip.lean ====
section
/-! DEFINITION. BITFLIP, the error-injection utility (spec/43_bitflip.md). -/

namespace Sys2Proof.Machine

/-- BITFLIP's result on an engine value: the codeword checks first, then the position (R190). -/
def bitflipResult (e : Engine) (rows : List Vec) (pos : Int) : Except ErrorKind Response :=
  match codewordOperand e rows with
  | .error kind => .error kind
  | .ok v =>
    match flipIndex e pos with
    | .error kind => .error kind
    | .ok j => .ok { vec := flip v j, diag := positionZero pos }

/-- BITFLIP (R190). -/
def execBitflip (rows : List Vec) (pos : Int) (s : State) : Host.Outcome State Fault Refusal :=
  .next (s.answer (responseOf (bitflipResult s.engine rows pos)))

end Sys2Proof.Machine
end

