-- ==== Sys2Proof/Machine/Encoder.lean ====
section
/-! DEFINITION. The sub-block `hamming_encoder`: ENCODE (spec/41_encoder.md). -/

namespace Sys2Proof.Machine

/-- ENCODE's result on an engine value: `c = w · G` (spec/41_encoder.md R130). -/
def encodeResult (e : Engine) (word : List Char8) : Except ErrorKind Response :=
  match dataWord e word with
  | .error kind => .error kind
  | .ok w => .ok { vec := vecMul w e.G e.n }

/-- ENCODE (spec/41_encoder.md R130). -/
def execEncode (word : List Char8) (s : State) : Host.Outcome State Fault Refusal :=
  .next (s.answer (responseOf (encodeResult s.engine word)))

end Sys2Proof.Machine
end

