-- ==== Sys2Proof/Machine/SyndromeDecoder.lean ====
section
/-! DEFINITION. The sub-block `hamming_syndrome_decoder`: CHECK, CORRECT and DECODE (spec/42_syndrome_decoder.md). -/

namespace Sys2Proof.Machine

/-- CHECK's result on an engine value (R154). -/
def checkResult (e : Engine) (rows : List Vec) : Except ErrorKind Response :=
  match codewordOperand e rows with
  | .error kind => .error kind
  | .ok v => .ok { flag := zeroSyndrome e v }

/-- The operand checks and the correction stage that CORRECT and DECODE begin with (R155, R157). -/
def correctionOfRows (e : Engine) (rows : List Vec) : Except ErrorKind Correction :=
  match codewordOperand e rows with
  | .error kind => .error kind
  | .ok v => correction e v

/-- CORRECT's result on an engine value (R155). -/
def correctResult (e : Engine) (rows : List Vec) : Except ErrorKind Response :=
  match correctionOfRows e rows with
  | .error kind => .error kind
  | .ok c => .ok { vec := c.vec, corr := c.corr, index := c.index }

/-- DECODE's result on an engine value: the first `k` elements of the corrected codeword (R157). -/
def decodeResult (e : Engine) (rows : List Vec) : Except ErrorKind Response :=
  match correctionOfRows e rows with
  | .error kind => .error kind
  | .ok c => .ok { vec := c.vec.take e.k, corr := c.corr, index := c.index }

/-- CHECK (R154). -/
def execCheck (rows : List Vec) (s : State) : Host.Outcome State Fault Refusal :=
  .next (s.answer (responseOf (checkResult s.engine rows)))

/-- CORRECT (R155). -/
def execCorrect (rows : List Vec) (s : State) : Host.Outcome State Fault Refusal :=
  .next (s.answer (responseOf (correctResult s.engine rows)))

/-- DECODE (R157). -/
def execDecode (rows : List Vec) (s : State) : Host.Outcome State Fault Refusal :=
  .next (s.answer (responseOf (decodeResult s.engine rows)))

end Sys2Proof.Machine
end

