-- ==== Sys2Proof/Machine/Dispatch.lean ====
section
/-! DEFINITION. The meaning of each instruction, one arm per row of spec/opcode_table.json. -/

namespace Sys2Proof.Machine

def exec (i : Instr) (s : State) : Host.Outcome State Fault Refusal :=
  match i with
  | .encode word => Sys2Proof.Machine.execEncode word s
  | .check rows => Sys2Proof.Machine.execCheck rows s
  | .correct rows => Sys2Proof.Machine.execCorrect rows s
  | .decode rows => Sys2Proof.Machine.execDecode rows s
  | .bitflip rows pos => Sys2Proof.Machine.execBitflip rows pos s

end Sys2Proof.Machine
end

