-- ==== Sys2Proof/Machine/Step.lean ====
section
/-! DEFINITION. One atomic step per request (spec/70_reset_and_hazards.md R236). -/

namespace Sys2Proof.Machine

/-- Serve the oldest waiting request: the instruction its descriptor asks for (spec/30_encoding.md R73), or
`IllegalOperation` for a reserved one (spec/60_exceptions.md R207). A block with no request waiting is
quiescent (R237) and its step changes nothing (log entry 3). -/
def step (s : State) : Host.Outcome State Fault Refusal :=
  match takeRequest s with
  | none => .next s
  | some (.meaningless, s') => .next (answerMeaningless s')
  | some (.request r, s') =>
    match decode r with
    | .ok i => exec i s'
    | .error _ => .next (answerReserved s')

/-- A request with descriptor `w` and empty operands, next to be served. The table's encodings are 8 bits wide
(spec/30_encoding.md R71), and the operands are no part of them (R70). -/
def State.withFetchWord (s : State) (_nbits w : Nat) : State :=
  { s with pending := .request (requestOfWord w) :: s.pending }

end Sys2Proof.Machine
end

