-- ==== Sys2Proof/Machine/Assembler.lean ====
section
/-! DEFINITION. The assembler syntax of requests (spec/30_encoding.md R84): one line of characters to a request. The
host's program notation of that rule is no part of the block and is not modelled. -/

namespace Sys2Proof.Machine.Asm

/-- A parser: what it read, and the characters after it. -/
abbrev Parse (α : Type) := Option (α × List Char)

/-- The characters after leading spaces (log entry 13). -/
def skipSpaces : List Char → List Char
  | ' ' :: cs => skipSpaces cs
  | cs => cs

/-- The 8-bit code of a character; wider characters cannot be presented (spec/93_implementation_defined.md I12). -/
def charCode (c : Char) : Option Char8 := if c.toNat < 256 then some (BitVec.ofNat 8 c.toNat) else none

/-- The characters up to a closing quote, in order, none trimmed. -/
def quoted : List Char → Parse (List Char8)
  | [] => none
  | '"' :: cs => some ([], cs)
  | c :: cs => match charCode c, quoted cs with
    | some b, some (w, rest) => some (b :: w, rest)
    | _, _ => none

/-- A hexadecimal digit, of either case. -/
def hexDigit (c : Char) : Option Nat :=
  if '0' ≤ c ∧ c ≤ '9' then some (c.toNat - 48)
  else if 'a' ≤ c ∧ c ≤ 'f' then some (c.toNat - 87)
  else if 'A' ≤ c ∧ c ≤ 'F' then some (c.toNat - 55)
  else none

/-- `0x<hh>`, two digits. -/
def hexByte : List Char → Parse (BitVec 8)
  | '0' :: 'x' :: a :: b :: cs => match hexDigit a, hexDigit b with
    | some h, some l => some (BitVec.ofNat 8 (16 * h + l), cs)
    | _, _ => none
  | _ => none

/-- A word given as explicit codes, separated by commas; `fuel` bounds their number. -/
def codes : Nat → List Char → Parse (List Char8)
  | 0, _ => none
  | fuel + 1, cs => match hexByte (skipSpaces cs) with
    | none => none
    | some (b, rest) => match skipSpaces rest with
      | ',' :: more => match codes fuel more with
        | some (w, after) => some (b :: w, after)
        | none => none
      | _ => some ([b], rest)

/-- The bits of a row after its opening bracket, leftmost first, spaces optional. -/
def rowBits : List Char → Parse Vec
  | ']' :: cs => some ([], cs)
  | ' ' :: cs => rowBits cs
  | '0' :: cs => (rowBits cs).map fun (v, rest) => (false :: v, rest)
  | '1' :: cs => (rowBits cs).map fun (v, rest) => (true :: v, rest)
  | _ => none

/-- One or more rows, separated by commas, and the closing bracket of the list; `fuel` bounds their number. -/
def rowList : Nat → List Char → Parse (List Vec)
  | 0, _ => none
  | fuel + 1, cs => match skipSpaces cs with
    | '[' :: row => match rowBits row with
      | none => none
      | some (v, rest) => match skipSpaces rest with
        | ',' :: more => match rowList fuel more with
          | some (vs, after) => some (v :: vs, after)
          | none => none
        | ']' :: after => some ([v], after)
        | _ => none
    | _ => none

/-- A `<cw>`: one row, a list of rows, or `ROWS0`. -/
def codeword (cs : List Char) : Parse (List Vec) :=
  match skipSpaces cs with
  | 'R' :: 'O' :: 'W' :: 'S' :: '0' :: rest => some ([], rest)
  | '[' :: rest => match skipSpaces rest with
    | '[' :: _ => rowList (rest.length + 1) rest
    | _ => (rowBits rest).map fun (v, after) => ([v], after)
  | _ => none

/-- An ENCODE word: quoted characters or explicit codes. -/
def wordOperand (cs : List Char) : Parse (List Char8) :=
  match skipSpaces cs with
  | '"' :: rest => quoted rest
  | rest => codes (rest.length + 1) rest

/-- Decimal digits, with the value of those already read; at least one more must follow. -/
def digits (acc : Nat) : List Char → Parse Nat
  | [] => none
  | c :: cs =>
    if '0' ≤ c ∧ c ≤ '9' then
      match digits (10 * acc + (c.toNat - 48)) cs with
      | some r => some r
      | none => some (10 * acc + (c.toNat - 48), cs)
    else none

/-- A decimal integer, with an optional minus sign. -/
def integer (cs : List Char) : Parse Int :=
  match skipSpaces cs with
  | '-' :: rest => (digits 0 rest).map fun (x, after) => (-(x : Int), after)
  | rest => (digits 0 rest).map fun (x, after) => ((x : Int), after)

/-- A value that must end the line, but for spaces. -/
def atEnd {α : Type} : Parse α → Option α
  | some (x, rest) => if (skipSpaces rest).isEmpty then some x else none
  | none => none

/-- `<cw>, <integer>`. -/
def codewordAndPos (cs : List Char) : Parse (List Vec × Int) :=
  match codeword cs with
  | none => none
  | some (rows, rest) => match skipSpaces rest with
    | ',' :: more => (integer more).map fun (x, after) => ((rows, x), after)
    | _ => none

/-- The operands of a raw descriptor: none, a word, a codeword, or a codeword and a position. -/
def rawOperands (d : Desc) (cs : List Char) : Option Request :=
  if (skipSpaces cs).isEmpty then some { desc := d }
  else match atEnd (codewordAndPos cs), atEnd (codeword cs), atEnd (wordOperand cs) with
    | some (rows, x), _, _ => some { desc := d, rows := rows, pos := x }
    | none, some rows, _ => some { desc := d, rows := rows }
    | none, none, some w => some { desc := d, word := w }
    | none, none, none => none

/-- The mnemonic, its letters made capital (R84: case-insensitive), and the characters after it. -/
def mnemonic : List Char → List Char × List Char
  | c :: cs => if c.isAlpha || c == '.' then (c.toUpper :: (mnemonic cs).1, (mnemonic cs).2) else ([], c :: cs)
  | [] => ([], [])

/-- One request line (R84), or none where the line is not one. -/
def parse (line : List Char) : Option Request :=
  match mnemonic (skipSpaces line) with
  | (['E', 'N', 'C', 'O', 'D', 'E'], cs) => (atEnd (wordOperand cs)).map fun w => encode (.encode w)
  | (['C', 'H', 'E', 'C', 'K'], cs) => (atEnd (codeword cs)).map fun rows => encode (.check rows)
  | (['C', 'O', 'R', 'R', 'E', 'C', 'T'], cs) => (atEnd (codeword cs)).map fun rows => encode (.correct rows)
  | (['D', 'E', 'C', 'O', 'D', 'E'], cs) => (atEnd (codeword cs)).map fun rows => encode (.decode rows)
  | (['B', 'I', 'T', 'F', 'L', 'I', 'P'], cs) =>
    (atEnd (codewordAndPos cs)).map fun (rows, x) => encode (.bitflip rows x)
  | (['.', 'D', 'E', 'S', 'C'], cs) => match hexByte (skipSpaces cs) with
    | some (d, rest) => rawOperands d rest
    | none => none
  | _ => none

/-! The text of a request (R84): one line that `parse` reads back. -/

/-- A hexadecimal digit. -/
def hexChar (x : Nat) : Char := if x < 10 then Char.ofNat (48 + x) else Char.ofNat (87 + x)

/-- An 8-bit code as `0x<hh>`. -/
def byteText (b : BitVec 8) : List Char := ['0', 'x', hexChar (b.toNat / 16), hexChar (b.toNat % 16)]

/-- Texts separated by commas. -/
def commas : List (List Char) → List Char
  | [] => []
  | [t] => t
  | t :: ts => t ++ ',' :: commas ts

/-- A word as explicit codes; the empty word between quotes. -/
def wordText (w : List Char8) : List Char := if w.isEmpty then ['"', '"'] else commas (w.map byteText)

/-- A text between brackets. -/
def bracketed (t : List Char) : List Char := '[' :: t ++ [']']

/-- A row, its bits leftmost first. -/
def rowText (v : Vec) : List Char := bracketed (v.map fun b => if b then '1' else '0')

/-- An explicit list of rows. -/
def rowListText (rows : List Vec) : List Char := bracketed (commas (rows.map rowText))

/-- A `<cw>`: `ROWS0`, one row, or a list of rows. -/
def codewordText : List Vec → List Char
  | [] => ['R', 'O', 'W', 'S', '0']
  | [v] => rowText v
  | rows => rowListText rows

/-- The bits that a row's text writes, leftmost first; spaces write none. -/
def rowValue (t : List Char) : Vec := (t.filter (· ≠ ' ')).map (· == '1')

/-- The text `cw` is a `<cw>` that writes `rows` (R84): `ROWS0`, or one or more rows with optional spaces inside each,
in an explicit list, where a single row may also stand alone. -/
def IsCodewordText (cw : List Char) (rows : List Vec) : Prop :=
  (cw = codewordText [] ∧ rows = []) ∨
  ∃ texts : List (List Char), texts ≠ [] ∧ (∀ t ∈ texts, ∀ c ∈ t, c = '0' ∨ c = '1' ∨ c = ' ') ∧
    rows = texts.map rowValue ∧
    (cw = bracketed (commas (texts.map bracketed)) ∨ ∃ t, texts = [t] ∧ cw = bracketed t)

/-- The decimal digits of a number, most significant first; `fuel` bounds their count. -/
def decimalDigits : Nat → Nat → List Nat
  | 0, _ => []
  | fuel + 1, x => if x < 10 then [x] else decimalDigits fuel (x / 10) ++ [x % 10]

/-- A decimal integer. -/
def integerText (x : Int) : List Char :=
  (if x < 0 then ['-'] else []) ++ (decimalDigits (x.natAbs + 1) x.natAbs).map fun d => Char.ofNat (48 + d)

/-- The mnemonic of an instruction, in capitals. -/
def mnemonicText : Instr → List Char
  | .encode _ => ['E', 'N', 'C', 'O', 'D', 'E']
  | .check _ => ['C', 'H', 'E', 'C', 'K']
  | .correct _ => ['C', 'O', 'R', 'R', 'E', 'C', 'T']
  | .decode _ => ['D', 'E', 'C', 'O', 'D', 'E']
  | .bitflip _ _ => ['B', 'I', 'T', 'F', 'L', 'I', 'P']

/-- The name of a raw descriptor line, in capitals. -/
def rawName : List Char := ['.', 'D', 'E', 'S', 'C']

/-- `<cw>, <integer>`, with the text of the codeword. -/
def withPosition (cw : List Char) (pos : Int) : List Char := cw ++ [',', ' '] ++ integerText pos

/-- The operands of an instruction. -/
def operandText : Instr → List Char
  | .encode word => wordText word
  | .check rows => codewordText rows
  | .correct rows => codewordText rows
  | .decode rows => codewordText rows
  | .bitflip rows pos => withPosition (codewordText rows) pos

/-- A line: a name, and the operands after a space. -/
def lineText (name operands : List Char) : List Char := name ++ ' ' :: operands

/-- A raw descriptor line with its name and the text of its operands. -/
def rawText (name : List Char) (d : Desc) (operands : List Char) : List Char := lineText name (byteText d ++ operands)

end Sys2Proof.Machine.Asm
end

