-- ==== Sys2Proof/WellFormed.lean ====
section
/-! DEFINITION. What can be presented to the block. The transaction model admits every operand value
(spec/30_encoding.md R82): the types of Syntax.lean exclude what spec/93_implementation_defined.md I11 and I12
exclude. A physical port admits less (I10), and its parameters have ranges (spec/00_scope.md R9). -/

namespace Sys2Proof

/-- The ranges of `M`, `LCAP` and `POS_W` (spec/00_scope.md R9). -/
def PortParams.legal (p : PortParams) (m : Nat) : Bool :=
  1 ≤ m && Machine.codeLength m ≤ p.lcap && m + 2 ≤ p.posW

/-- A codeword operand fits the port: only a single row is read from the lanes (spec/30_encoding.md R81, R82). -/
def rowsFit (p : PortParams) : List Vec → Bool
  | [row] => row.length ≤ p.lcap
  | _ => true

/-- `pos` is in the `POS_W`-bit two's-complement range (spec/30_encoding.md R76, I10). -/
def posFits (p : PortParams) (pos : Int) : Bool :=
  -(2 ^ (p.posW - 1) : Nat) ≤ pos && pos < (2 ^ (p.posW - 1) : Nat)

/-- An instruction whose operands a port can carry (spec/30_encoding.md R82, I10). -/
def Instr.wellFormed (p : PortParams) : Instr → Bool
  | .encode word => word.length ≤ p.lcap
  | .check rows => rowsFit p rows
  | .correct rows => rowsFit p rows
  | .decode rows => rowsFit p rows
  | .bitflip rows pos => rowsFit p rows && posFits p pos

end Sys2Proof
end

