-- ==== Sys2Proof/Machine/Port.lean ====
section
/-! DEFINITION. The physical port, a mapping of the transaction model (spec/30_encoding.md R81 to R83,
spec/20_memory.md R55, R60, spec/70_reset_and_hazards.md R230, R231, R234). -/

namespace Sys2Proof.Machine

/-- `LW`, the width of a length lane (R81). -/
def lengthWidth (p : PortParams) : Nat := clog2 (p.lcap + 1)

/-- `IW`, the width of `rsp_index` (R81). -/
def indexWidth (e : Engine) : Nat := max 1 (clog2 e.n)

/-- The codeword operand from its lanes (R83). A row count of 2 or 3 stands for further rows whose contents
do not matter; one empty row stands for them (log entry 10). -/
def assembleRows (pr : PortRequest) : List Vec :=
  match pr.rows with
  | 0#2 => []
  | 1#2 => [unpackBits pr.cwLen pr.cw]
  | _ => [unpackBits pr.cwLen pr.cw, []]

/-- Operand assembly from the port fields (R83). -/
def assemble (p : PortParams) (pr : PortRequest) : Request :=
  { desc := pr.desc, word := unpackChars pr.wordLen pr.word, rows := assembleRows pr, pos := sext p.posW pr.pos }

/-- The elements of row 0 that the lane `req_cw` holds. -/
def drivenRow (p : PortParams) (r : Request) : Vec := (r.rows.headD []).take p.lcap

/-- The lanes a host drives for a request (R81, spec/20_memory.md R55): only the row count and row 0 travel, and no
lane carries more than `LCAP` elements. What is cut off an operand that does not fit is read by no operation: a
request that a port can carry has every operand it names whole (`Instr.wellFormed`), but for row 0 of several rows,
where only the count matters (R83). -/
def driveRequest (p : PortParams) (r : Request) : PortRequest :=
  { desc := r.desc, wordLen := (r.word.take p.lcap).length, word := packChars (r.word.take p.lcap),
    rows := BitVec.ofNat 2 (min 2 r.rows.length), cwLen := (drivenRow p r).length,
    cw := packBits (drivenRow p r), pos := twosComplement p.posW r.pos }

/-- The response lanes (R81): `vec` on the low `len` bits, 0 above them. -/
def driveResponse (r : Response) : PortResponse :=
  { status := statusCode r.status, flag := r.flag, corr := corrCode r.corr, index := r.index,
    diag := r.diag, len := r.vec.length, vec := packBits r.vec }

/-- A request the port can carry: the operands its descriptor names fit (R82, spec/93_implementation_defined.md
I10). Lanes that it does not name may hold anything (R77). -/
def presentable (p : PortParams) (pr : PortRequest) : Bool :=
  match decode (assemble p pr) with
  | .ok i => i.wellFormed p
  | .error _ => true

/-- The inputs sampled at a rising edge of `clk` (R81). -/
structure PortIn where
  rst : Bool
  reqValid : Bool
  req : PortRequest
  rspReady : Bool
  deriving DecidableEq, Repr

/-- What the spec leaves open at an edge, an argument of the model (log entry 5): whether `req_ready` is high
after the edge (I5), whether the oldest request is answered at it (`LAT`, I4), and what the response lanes
show while no response is offered (I6). -/
structure PortChoice where
  ready : Bool
  serve : Bool
  idle : PortResponse
  deriving DecidableEq, Repr

/-- The outputs of the port (R81, spec/40_generator_matrix.md R115). -/
structure PortOut where
  reqReady : Bool
  rspValid : Bool
  rsp : PortResponse
  gMatrix : Nat
  pMatrix : Nat
  deriving DecidableEq, Repr

/-- The outputs in a state, with `rst` at a level: `rst` forces `req_ready` and `rsp_valid` low
(spec/70_reset_and_hazards.md R230, D19). The oldest response is offered first (spec/20_memory.md R60).
DESIGN CHOICE (log entry 16): once offered it stays offered, unchanged, until it is taken or `rst` drops it. -/
def portOutputs (ch : PortChoice) (rst : Bool) (s : State) : PortOut :=
  { reqReady := s.reqReady && !rst
    rspValid := !s.responses.isEmpty && !rst
    rsp := match rst, s.responses with
      | false, r :: _ => driveResponse r
      | _, _ => ch.idle
    gMatrix := gMatrixPort s.engine
    pMatrix := pMatrixPort s.engine }

/-- A response transfers where `rsp_valid` and `rsp_ready` are high (R81). -/
def takeResponse (inp : PortIn) (s : State) : State :=
  if inp.rspReady then { s with responses := s.responses.tail } else s

/-- The host does not hold its standing offer: it changed the request or withdrew it
(spec/70_reset_and_hazards.md R234). The request is the record the lanes assemble to, so bits at or above an operand's
length are ignored (spec/20_memory.md R55). -/
def breaksHandshake (p : PortParams) (inp : PortIn) (s : State) : Bool :=
  match s.standing with
  | none => false
  | some offer => !(inp.reqValid && assemble p inp.req == offer)

/-- The state once the host's keeping of the handshake has been judged at this edge (R234, log entry 8). -/
def judgeHandshake (p : PortParams) (inp : PortIn) (s : State) : State :=
  if s.handshakeBroken || breaksHandshake p inp s then loseMeaning s else s

/-- The offer at an edge, of a host already judged (R81): a transfer where `req_valid` and `req_ready` are high, else
the offer stands. A host that broke the handshake transfers requests without a meaning (log entry 8). -/
def takeOffer (p : PortParams) (inp : PortIn) (s : State) : Host.Outcome State Fault Refusal :=
  if inp.reqValid then
    if s.reqReady then
      if s.handshakeBroken then .next (s.accept .meaningless)
      else if presentable p inp.req then .next (s.accept (.request (assemble p inp.req)))
      else .refused .unpresentable
    else .next { s with standing := some (assemble p inp.req) }
  else .next { s with standing := none }

/-- The request side of an edge. -/
def acceptOffer (p : PortParams) (inp : PortIn) (s : State) : Host.Outcome State Fault Refusal :=
  takeOffer p inp (judgeHandshake p inp s)

/-- The block's own work at an edge: it answers its oldest request or not, and sets `req_ready`. -/
def serveEdge (ch : PortChoice) (s : State) : Host.Outcome State Fault Refusal :=
  match (if ch.serve then step s else .next s) with
  | .next s' => .next { s' with reqReady := ch.ready }
  | .fault f => .fault f
  | .refused r => .refused r

/-- One rising edge of `clk` (R81): reset, or the transfers of both sides and the block's own work
(log entry 7). -/
def edge (p : PortParams) (ch : PortChoice) (inp : PortIn) (s : State) : Host.Outcome State Fault Refusal :=
  if inp.rst then .next (applyReset s)
  else match acceptOffer p inp (takeResponse inp s) with
    | .next s' => serveEdge ch s'
    | .fault f => .fault f
    | .refused r => .refused r

end Sys2Proof.Machine
end

