-- ==== Sys2Proof/Safety.lean ====
section
/-! DEFINITION. What claims are stated in: codewords, parity recomputed from the responsibility map, the responses
the spec allows, and the invariant of a run. -/

namespace Sys2Proof.Machine

/-- A valid codeword of the code with parameter `m`: length `n` and a zero syndrome (spec/00_scope.md glossary). -/
def IsCodeword (m : Nat) (v : Vec) : Prop := v.length = codeLength m ∧ syndrome (tables m) v = zeros m

/-- Parity bit `i` of a data word: the sum of the data bits whose position has bit `i` set
(spec/41_encoder.md R131, spec/40_generator_matrix.md R104). -/
def parityOf (m : Nat) (w : Vec) (i : Nat) : Bit :=
  xorSum ((responsibilitySet (dataPositions (codeLength m)) (dataLength m) i).map fun j => w.getD j false)

/-- A word ENCODE accepts (spec/41_encoder.md R130). -/
def AcceptedWord (m : Nat) (word : List Char8) : Prop :=
  word.length = dataLength m ∧ ∀ c ∈ word, c = 0x30#8 ∨ c = 0x31#8

/-- The codeword of a word of data bits: `w · G` (spec/41_encoder.md R130). -/
def codewordOf (m : Nat) (w : Vec) : Vec := vecMul w (tables m).G (codeLength m)

/-- The outcome in which a request is answered with `r` and nothing else happens. -/
def answers (s : State) (r : Response) : Host.Outcome State Fault Refusal :=
  .next { s with responses := s.responses ++ [r] }

/-- A legal descriptor, read as a number (spec/30_encoding.md R73): the field `desc[7:3]` is 0 and `desc[2:0]` is
one of 1 to 5. -/
def LegalDescriptor (d : Desc) : Prop := d.toNat / 8 = 0 ∧ 1 ≤ d.toNat % 8 ∧ d.toNat % 8 ≤ 5

/-- A response the spec allows a block with engine `e` to give (spec/30_encoding.md R78, spec/42_syndrome_decoder.md
R156, spec/60_exceptions.md R200, R202, R205): an error kind other than `InvalidParameter` and
`UncorrectableError` with every other field at its default; or a success of one of R78's five rows. -/
def Response.Allowed (e : Engine) (r : Response) : Prop :=
  match r.status with
  | .error kind => r = { status := .error kind } ∧ kind ≠ .invalidParameter ∧ kind ≠ .uncorrectableError
  | .ok => match r.corr with
    | .none => (r = { flag := r.flag }) ∨ (r = { diag := r.diag, vec := r.vec } ∧ r.vec.length = e.n)
    | .valid => r = { corr := .valid, vec := r.vec } ∧ (r.vec.length = e.n ∨ r.vec.length = e.k)
    | .corrected => r = { corr := .corrected, index := r.index, vec := r.vec } ∧ r.index < e.n ∧
        (r.vec.length = e.n ∨ r.vec.length = e.k)

/-- The block was elaborated: its engine value is that of some `M ≥ 1` (spec/10_state.md R20, R22). -/
def State.Constructed (s : State) : Prop := ∃ m, 1 ≤ m ∧ s.engine = tables m

/-- The invariant of a block whose hosts keep the handshake: it was elaborated, every request it holds has a
meaning, no standing offer was broken, and every response it holds is one the spec allows. -/
structure State.Inv (s : State) : Prop where
  constructed : s.Constructed
  meaningful : ∀ a ∈ s.pending, a ≠ .meaningless
  handshake : s.handshakeBroken = false
  allowed : ∀ r ∈ s.responses, Response.Allowed s.engine r

end Sys2Proof.Machine
end

