-- ==== Sys2Proof/Certificates/Slice0/Obligations.lean ====
section
/-! DEFINITION. The statements for the provers. `m` is the parameter `M` of spec/00_scope.md R9, any `m ≥ 1`: a
statement about a state takes `s.engine = tables m`, which holds in every state a block elaborated with `M = m`
reaches (`StepKeepsInvariant`, `EngineValueIsNeverWritten`). -/

open Sys2Proof Sys2Proof.Machine

/-! ### Elaboration and reset -/

/-- spec/60_exceptions.md R205: Construct yields an engine value or `InvalidParameter`; no request is answered with
`InvalidParameter`, in any state, and no reset produces one. -/
def Obligations.InvalidParameterOnlyAtElaboration : Prop :=
  (∀ M : Int, (M < 1 → construct M = .error .invalidParameter ∧ State.elaborate M = .error .invalidParameter) ∧
    (1 ≤ M → ∃ e s, construct M = .ok e ∧ State.elaborate M = .ok s ∧ s.engine = e)) ∧
  (∀ (s t : State) (r : Request) (rest : List Accepted), s.pending = .request r :: rest → step s = .next t →
    ∃ a, t.responses = s.responses ++ [a] ∧ a.status ≠ .error .invalidParameter) ∧
  ∀ (p : PortParams) (ch : PortChoice) (inp : PortIn) (s t : State), inp.rst = true → edge p ch inp s = .next t →
    ∀ a ∈ t.responses, a.status ≠ .error .invalidParameter

/-- spec/70_reset_and_hazards.md R230, spec/10_state.md R21, for every `M ≥ 1`: after elaboration the code
parameters are `M`, `2^M − 1`, `2^M − 1 − M`, nothing is in flight, `rsp_valid` and `req_ready` are 0 and the matrix
ports show `G` and `P` flattened. That `req_ready` is 0 also once `rst` is low is the model's choice (log entry 15). -/
def Obligations.ElaboratedBlockAfterReset : Prop :=
  ∀ M : Int, 1 ≤ M → ∃ s, State.elaborate M = .ok s ∧
    (s.engine.m : Int) = M ∧ (s.engine.n : Int) = 2 ^ M.toNat - 1 ∧ (s.engine.k : Int) = 2 ^ M.toNat - 1 - M ∧
    s.pending = [] ∧ s.responses = [] ∧
    ∀ (ch : PortChoice) (rst : Bool),
      (portOutputs ch rst s).reqReady = false ∧ (portOutputs ch rst s).rspValid = false ∧
      (portOutputs ch rst s).gMatrix = packBits s.engine.G.flatten ∧
      (portOutputs ch rst s).pMatrix = packBits s.engine.P.flatten

/-! ### The tables -/

/-- spec/40_generator_matrix.md R101: `p ≥ 1` is a parity position iff it is a power of two; the others in `1..n`
are the data positions. -/
def Obligations.ParityPositionsArePowersOfTwo : Prop :=
  (∀ p, 1 ≤ p → (isParity p = true ↔ ∃ i, p = 2 ^ i) ∧ (isParity p = true ↔ p &&& (p - 1) = 0)) ∧
  ∀ m p, 1 ≤ m →
    (p ∈ (tables m).parPos ↔ 1 ≤ p ∧ p ≤ codeLength m ∧ ∃ i, p = 2 ^ i) ∧
    (p ∈ (tables m).dataPos ↔ 1 ≤ p ∧ p ≤ codeLength m ∧ ¬ ∃ i, p = 2 ^ i)

/-- spec/40_generator_matrix.md R102: the data positions in strictly increasing order, exactly `k` of them. -/
def Obligations.DataPositionsIncreaseAndNumberK : Prop :=
  (∀ m, 1 ≤ m → (tables m).dataPos.Pairwise (· < ·) ∧ (tables m).dataPos.length = dataLength m ∧
    ∀ p, p ∈ (tables m).dataPos ↔ 1 ≤ p ∧ p ≤ codeLength m ∧ ¬ ∃ i, p = 2 ^ i) ∧
  (tables 3).dataPos = [3, 5, 6, 7] ∧
  (tables 4).dataPos = [3, 5, 6, 7, 9, 10, 11, 12, 13, 14, 15]

/-- spec/40_generator_matrix.md R103: `parPos[i] = 2^i`, exactly `M` of them, in increasing order. -/
def Obligations.ParityPositionsInOrder : Prop :=
  ∀ m, 1 ≤ m → (tables m).parPos = (List.range m).map (2 ^ ·) ∧ (tables m).parPos.Pairwise (· < ·) ∧
    (tables m).parPos.length = m

/-- spec/40_generator_matrix.md R104 to R106: `R` has `M` strictly increasing lists of data-bit indices, `E` is the
`k × k` identity, and `A` is `M × k` with `A[i][j] = 1` iff `j ∈ R[i]` iff bit `i` of `dataPos[j]` is set; with the
rules' values for `M = 3` and `M = 4`. -/
def Obligations.ParityMatrixEntries : Prop :=
  (∀ m, 1 ≤ m →
    (tables m).R.length = m ∧
    (∀ i, i < m → ((tables m).R.getD i []).Pairwise (· < ·) ∧ ∀ j ∈ (tables m).R.getD i [], j < dataLength m) ∧
    (tables m).E.length = dataLength m ∧ (∀ row ∈ (tables m).E, row.length = dataLength m) ∧
    (∀ a b, a < dataLength m → b < dataLength m → entry (tables m).E a b = decide (a = b)) ∧
    (tables m).A.length = m ∧ (∀ row ∈ (tables m).A, row.length = dataLength m) ∧
    ∀ i j, i < m → j < dataLength m →
      (entry (tables m).A i j = true ↔ j ∈ (tables m).R.getD i []) ∧
      (j ∈ (tables m).R.getD i [] ↔ bit ((tables m).dataPos.getD j 0) i = true)) ∧
  (tables 3).R = [[0, 1, 3], [0, 2, 3], [1, 2, 3]] ∧
  (tables 4).R = [[0, 1, 3, 4, 6, 8, 10], [0, 2, 3, 5, 6, 9, 10], [1, 2, 3, 7, 8, 9, 10], [4, 5, 6, 7, 8, 9, 10]] ∧
  (tables 3).A.map packBits = [0b1011, 0b1101, 0b1110]

/-- spec/40_generator_matrix.md R107: `G` is `k × n` and equals `[E | Aᵀ]`, with the rule's `M = 3` value. -/
def Obligations.GeneratorMatrixIsSystematic : Prop :=
  (∀ m, 1 ≤ m →
    (tables m).G.length = dataLength m ∧ (∀ row ∈ (tables m).G, row.length = codeLength m) ∧
    (∀ r c, r < dataLength m → c < dataLength m → entry (tables m).G r c = decide (r = c)) ∧
    (∀ r i, r < dataLength m → i < m → entry (tables m).G r (dataLength m + i) = entry (tables m).A i r) ∧
    (dataLength m = 0 → (tables m).G = [])) ∧
  (tables 3).G.map packBits = [0b0110001, 0b1010010, 0b1100100, 0b1111000]

/-- spec/40_generator_matrix.md R108: `P` is `M × n` and equals `[A | I_M]`, with the rule's `M = 3` value. -/
def Obligations.CheckMatrixIsSystematic : Prop :=
  (∀ m, 1 ≤ m →
    (tables m).P.length = m ∧ (∀ row ∈ (tables m).P, row.length = codeLength m) ∧
    (∀ i c, i < m → c < dataLength m → entry (tables m).P i c = entry (tables m).A i c) ∧
    (∀ i t, i < m → t < m → entry (tables m).P i (dataLength m + t) = decide (t = i))) ∧
  (tables 3).P.map packBits = [0b0011011, 0b0101101, 0b1001110]

/-- spec/40_generator_matrix.md R109: every row of `G` has a zero inner product with every row of `P`, and so a
zero syndrome. -/
def Obligations.GeneratorOrthogonalToCheck : Prop :=
  ∀ m r, 1 ≤ m → r < dataLength m →
    (∀ i, i < m → dot ((tables m).G.getD r []) ((tables m).P.getD i []) = false) ∧
    syndrome (tables m) ((tables m).G.getD r []) = zeros m

/-- spec/40_generator_matrix.md R110: column `c` of `P` is the binary representation of the physical position of
systematic index `c`. -/
def Obligations.CheckColumnIsPhysicalPosition : Prop :=
  (∀ m c, 1 ≤ m → c < codeLength m →
    (∀ i, i < m → (col (tables m).P c).getD i false = bit (physPos (tables m) c) i) ∧
    packBits (col (tables m).P c) = physPos (tables m) c ∧
    (∀ j, j < dataLength m → physPos (tables m) j = (tables m).dataPos.getD j 0) ∧
    (∀ i, i < m → physPos (tables m) (dataLength m + i) = 2 ^ i)) ∧
  (List.range 7).map (fun c => packBits (col (tables 3).P c)) = [3, 5, 6, 7, 1, 2, 4]

/-- spec/40_generator_matrix.md R111: the columns of `P` are pairwise distinct and non-zero, and every non-zero
vector of length `M` is exactly one of them. -/
def Obligations.CheckColumnsAreAllNonzeroVectors : Prop :=
  ∀ m, 1 ≤ m →
    (∀ a b, a < codeLength m → b < codeLength m → col (tables m).P a = col (tables m).P b → a = b) ∧
    (∀ c, c < codeLength m → col (tables m).P c ≠ zeros m) ∧
    ∀ v : Vec, v.length = m → v ≠ zeros m → ∃! c, c < codeLength m ∧ col (tables m).P c = v

/-- spec/40_generator_matrix.md R112: `sysIndex` is `k + i` at `2^i` and `p − ⌊log2 p⌋ − 2` elsewhere, and it
inverts `physPos`. -/
def Obligations.SystematicIndexInvertsPosition : Prop :=
  ∀ m, 1 ≤ m →
    (∀ i, i < m → sysIndex (tables m) (2 ^ i) = dataLength m + i) ∧
    (∀ p, 1 ≤ p → p ≤ codeLength m → (¬ ∃ i, p = 2 ^ i) → sysIndex (tables m) p = p - Nat.log2 p - 2) ∧
    (∀ c, c < codeLength m → sysIndex (tables m) (physPos (tables m) c) = c) ∧
    ∀ p, 1 ≤ p → p ≤ codeLength m → sysIndex (tables m) p < codeLength m ∧
      physPos (tables m) (sysIndex (tables m) p) = p

/-- spec/40_generator_matrix.md R113: the codes of `M = 1`, which Construct admits, and `M = 2`. -/
def Obligations.SmallCodes : Prop :=
  construct 1 = .ok (tables 1) ∧
  tables 1 =
    { m := 1, n := 1, k := 0, dataPos := [], parPos := [1], R := [[]], E := [], A := [[]], G := [], P := [[true]] } ∧
  tables 2 =
    { m := 2, n := 3, k := 1, dataPos := [3], parPos := [1, 2], R := [[0], [0]], E := [[true]],
      A := [[true], [true]], G := [[true, true, true]], P := [[true, true, false], [true, false, true]] }

/-- spec/40_generator_matrix.md R115: the matrix ports carry `G` and `P` row-major, `k·n` and `M·n` bits wide, and hold
their value through every step and every edge, reset among them. -/
def Obligations.MatrixPortsAreConstantRowMajor : Prop :=
  (∀ (m : Nat) (s : State) (ch : PortChoice) (rst : Bool), 1 ≤ m → s.engine = tables m →
    (∀ r c, r < dataLength m → c < codeLength m →
      bit (portOutputs ch rst s).gMatrix (r * codeLength m + c) = entry (tables m).G r c) ∧
    (portOutputs ch rst s).gMatrix < 2 ^ (dataLength m * codeLength m) ∧
    (∀ i c, i < m → c < codeLength m →
      bit (portOutputs ch rst s).pMatrix (i * codeLength m + c) = entry (tables m).P i c) ∧
    (portOutputs ch rst s).pMatrix < 2 ^ (m * codeLength m)) ∧
  ∀ (p : PortParams) (ch ch' : PortChoice) (inp : PortIn) (rst rst' : Bool) (s t : State),
    step s = .next t ∨ edge p ch inp s = .next t →
      (portOutputs ch' rst' t).gMatrix = (portOutputs ch rst s).gMatrix ∧
      (portOutputs ch' rst' t).pMatrix = (portOutputs ch rst s).pMatrix

/-! ### Descriptors and the step -/

/-- spec/30_encoding.md R72: the five descriptors written out, and a reserved one. -/
def Obligations.DescriptorsDecodeAsTheTableSays : Prop :=
  ∀ (word : List Char8) (rows : List Vec) (pos : Int),
    decode { desc := 0b00000001#8, word, rows, pos } = .ok (.encode word) ∧
    decode { desc := 0b00000010#8, word, rows, pos } = .ok (.check rows) ∧
    decode { desc := 0b00000011#8, word, rows, pos } = .ok (.correct rows) ∧
    decode { desc := 0b00000100#8, word, rows, pos } = .ok (.decode rows) ∧
    decode { desc := 0b00000101#8, word, rows, pos } = .ok (.bitflip rows pos) ∧
    decode { desc := 0b00001001#8, word, rows, pos } = .error .reservedField

/-- Decode and encode agree: the encoder's request decodes to the instruction, under a legal descriptor; and an
instruction read from a request has that request's descriptor. -/
def Obligations.DecodeInvertsEncode : Prop :=
  (∀ i : Instr, decode (encode i) = .ok i ∧ LegalDescriptor (encode i).desc) ∧
  ∀ (r : Request) (i : Instr), decode r = .ok i → (encode i).desc = r.desc

/-- The step is `exec` of the decoded instruction, on the state without the request it serves; where the
descriptor is legal it decodes. -/
def Obligations.StepRunsTheDecodedInstruction : Prop :=
  ∀ (s : State) (r : Request) (rest : List Accepted), s.pending = .request r :: rest →
    (∀ i, decode r = .ok i → step s = exec i { s with pending := rest }) ∧
    (LegalDescriptor r.desc → ∃ i, decode r = .ok i)

/-- spec/60_exceptions.md R207, spec/30_encoding.md R73: every reserved descriptor is answered with
`IllegalOperation` and defaults, whatever the operands. -/
def Obligations.ReservedDescriptorIsIllegalOperation : Prop :=
  ∀ (s : State) (r : Request) (rest : List Accepted), s.pending = .request r :: rest →
    ¬ LegalDescriptor r.desc →
    step s = answers { s with pending := rest }
      { status := .error .illegalOperation, flag := false, corr := .none, index := 0, diag := false, vec := [] } ∧
    statusCode (.error .illegalOperation) = 0x9#4

/-- The model's choice (log entry 3): a step with no request waiting changes nothing. -/
def Obligations.QuiescentStepChangesNothing : Prop :=
  ∀ s : State, s.pending = [] → step s = .next s

/-- spec/30_encoding.md R77: operands an operation does not name never affect the response. -/
def Obligations.UnusedOperandsAreIgnored : Prop :=
  ∀ (s : State) (r r' : Request) (rest : List Accepted), r.desc = r'.desc →
    (r.desc = 0x01#8 → r.word = r'.word) →
    (r.desc = 0x02#8 ∨ r.desc = 0x03#8 ∨ r.desc = 0x04#8 → r.rows = r'.rows) →
    (r.desc = 0x05#8 → r.rows = r'.rows ∧ r.pos = r'.pos) →
    step { s with pending := .request r :: rest } = step { s with pending := .request r' :: rest }

/-! ### ENCODE -/

/-- spec/41_encoder.md R131: an accepted word completes, and its codeword `w · G` is the word followed by the parity
bits recomputed from the responsibility map. -/
def Obligations.EncodeAnswersDataThenParity : Prop :=
  ∀ (m : Nat) (s : State) (word : List Char8), 1 ≤ m → s.engine = tables m → AcceptedWord m word →
    exec (.encode word) s = answers s
      { vec := word.map (· == 0x31#8) ++ (List.range m).map (parityOf m (word.map (· == 0x31#8))) } ∧
    codewordOf m (word.map (· == 0x31#8)) =
      word.map (· == 0x31#8) ++ (List.range m).map (parityOf m (word.map (· == 0x31#8)))

/-- spec/41_encoder.md R130, spec/60_exceptions.md R204: length before alphabet. -/
def Obligations.EncodeRefusesBadWords : Prop :=
  ∀ (m : Nat) (s : State) (word : List Char8), 1 ≤ m → s.engine = tables m →
    (word.length ≠ dataLength m → exec (.encode word) s = answers s { status := .error .invalidWordLength }) ∧
    (word.length = dataLength m → (∃ c ∈ word, c ≠ 0x30#8 ∧ c ≠ 0x31#8) →
      exec (.encode word) s = answers s { status := .error .invalidWordAlphabet })

/-- spec/41_encoder.md R132: CHECK of the codeword ENCODE returned answers 1, in every later state. -/
def Obligations.EncodedWordChecksValid : Prop :=
  ∀ (m : Nat) (s s' : State) (word : List Char8), 1 ≤ m → s.engine = tables m → s'.engine = tables m →
    AcceptedWord m word → ∃ c : Vec,
      exec (.encode word) s = answers s { vec := c } ∧ syndrome (tables m) c = zeros m ∧
      exec (.check [c]) s' = answers s' { flag := true }

/-- spec/41_encoder.md R133: the code is linear and the map is injective, so there are exactly `2^k` codewords. -/
def Obligations.EncodingIsLinearAndInjective : Prop :=
  ∀ m, 1 ≤ m →
    (∀ w u : Vec, w.length = dataLength m → u.length = dataLength m →
      codewordOf m (xorVec w u) = xorVec (codewordOf m w) (codewordOf m u)) ∧
    codewordOf m (zeros (dataLength m)) = zeros (codeLength m) ∧
    (∀ w u : Vec, w.length = dataLength m → u.length = dataLength m →
      codewordOf m w = codewordOf m u → w = u) ∧
    ∃ code : List Vec, code.Nodup ∧ code.length = 2 ^ dataLength m ∧
      ∀ v, v ∈ code ↔ ∃ w : Vec, w.length = dataLength m ∧ v = codewordOf m w

/-- spec/41_encoder.md R134: for `M ≥ 2` every responsibility set has `2^(M−1) − 1` elements, an odd number, and the
all-ones word encodes to the all-ones vector. -/
def Obligations.AllOnesWordEncodesToAllOnes : Prop :=
  ∀ (m : Nat) (s : State), 2 ≤ m → s.engine = tables m →
    (∀ i, i < m → ((tables m).R.getD i []).length = 2 ^ (m - 1) - 1 ∧ ((tables m).R.getD i []).length % 2 = 1) ∧
    exec (.encode (List.replicate (dataLength m) 0x31#8)) s = answers s { vec := List.replicate (codeLength m) true }

/-! ### CHECK, CORRECT, DECODE -/

/-- spec/42_syndrome_decoder.md R152: element `i` of the syndrome is the GF(2) sum over the codeword of row `i` of
`P`; equivalently the received parity bit `i` plus the parity recomputed from the received data bits. Its value is
at most `n`. -/
def Obligations.SyndromeComparesParities : Prop :=
  ∀ (m : Nat) (v : Vec), 1 ≤ m → v.length = codeLength m →
    (syndrome (tables m) v).length = m ∧
    (∀ i, i < m →
      (syndrome (tables m) v).getD i false =
        xorSum ((List.range (codeLength m)).map fun c => entry (tables m).P i c && v.getD c false) ∧
      (syndrome (tables m) v).getD i false = xor (v.getD (dataLength m + i) false) (parityOf m v i)) ∧
    packBits (syndrome (tables m) v) = ((List.range m).map fun i =>
      ((syndrome (tables m) v).getD i false).toNat * 2 ^ i).sum ∧
    packBits (syndrome (tables m) v) ≤ codeLength m

/-- spec/42_syndrome_decoder.md R154: CHECK of a length-`n` vector completes, and its flag is 1 iff every received
parity bit is the one recomputed from the received data bits. -/
def Obligations.CheckAnswersParityAgreement : Prop :=
  ∀ (m : Nat) (s : State) (v : Vec), 1 ≤ m → s.engine = tables m → v.length = codeLength m →
    ((∀ i, i < m → v.getD (dataLength m + i) false = parityOf m v i) →
      exec (.check [v]) s = answers s { flag := true }) ∧
    ((∃ i, i < m ∧ v.getD (dataLength m + i) false ≠ parityOf m v i) →
      exec (.check [v]) s = answers s { flag := false })

/-- The vectors CHECK accepts are exactly the codewords of their own data parts (spec/42_syndrome_decoder.md R154's
corner cases, spec/41_encoder.md R131). -/
def Obligations.CheckAcceptsExactlyTheCode : Prop :=
  ∀ (m : Nat) (s : State) (v : Vec), 1 ≤ m → s.engine = tables m → v.length = codeLength m →
    (exec (.check [v]) s = answers s { flag := true } ↔ v = codewordOf m (v.take (dataLength m)))

/-- spec/42_syndrome_decoder.md R153: the column search finds the one column equal to a non-zero syndrome, at the
systematic index of the syndrome value, and finds none for the zero syndrome. -/
def Obligations.ColumnSearchFindsTheSystematicIndex : Prop :=
  ∀ (m : Nat) (v : Vec), 1 ≤ m → v.length = m →
    (v ≠ zeros m → findColumn (tables m) v = some (sysIndex (tables m) (packBits v)) ∧
      ∀ c, c < codeLength m → (col (tables m).P c = v ↔ findColumn (tables m) v = some c)) ∧
    (v = zeros m → findColumn (tables m) v = none)

/-- spec/42_syndrome_decoder.md R155: CORRECT of a length-`n` vector completes: unchanged and VALID on a zero
syndrome, else the one element that the syndrome value names is flipped, CORRECTED. -/
def Obligations.CorrectAnswersTheFlippedElement : Prop :=
  ∀ (m : Nat) (s : State) (v : Vec), 1 ≤ m → s.engine = tables m → v.length = codeLength m →
    (syndrome (tables m) v = zeros m →
      exec (.correct [v]) s = answers s { vec := v, corr := .valid, index := 0 }) ∧
    (syndrome (tables m) v ≠ zeros m → ∃ j, j < codeLength m ∧
      j = sysIndex (tables m) (packBits (syndrome (tables m) v)) ∧
      exec (.correct [v]) s = answers s { vec := v.set j (!v.getD j false), corr := .corrected, index := j })

/-- spec/42_syndrome_decoder.md R157: DECODE of a length-`n` vector completes: the first `k` elements of what CORRECT
gives, with CORRECT's outcome. -/
def Obligations.DecodeAnswersTheFirstKBits : Prop :=
  ∀ (m : Nat) (s : State) (v : Vec), 1 ≤ m → s.engine = tables m → v.length = codeLength m →
    (syndrome (tables m) v = zeros m →
      exec (.decode [v]) s = answers s { vec := v.take (dataLength m), corr := .valid, index := 0 }) ∧
    (syndrome (tables m) v ≠ zeros m → ∃ j, j < codeLength m ∧
      j = sysIndex (tables m) (packBits (syndrome (tables m) v)) ∧
      exec (.decode [v]) s = answers s
        { vec := (v.set j (!v.getD j false)).take (dataLength m), corr := .corrected, index := j })

/-- spec/42_syndrome_decoder.md R156: every non-zero syndrome matches exactly one column, CORRECT succeeds on every
length-`n` input, and no request is ever answered with `UncorrectableError`. -/
def Obligations.UncorrectableErrorIsUnreachable : Prop :=
  ∀ m, 1 ≤ m →
    (∀ v : Vec, v.length = codeLength m → syndrome (tables m) v ≠ zeros m →
      findColumn (tables m) (syndrome (tables m) v) ≠ none ∧
      ∃! c, c < codeLength m ∧ col (tables m).P c = syndrome (tables m) v) ∧
    (∀ (s : State) (v : Vec), s.engine = tables m → v.length = codeLength m →
      ∃ a, exec (.correct [v]) s = answers s a ∧ a.status = .ok) ∧
    ∀ (s t : State) (r : Request) (rest : List Accepted), s.engine = tables m → s.pending = .request r :: rest →
      step s = .next t → ∃ a, t.responses = s.responses ++ [a] ∧ a.status ≠ .error .uncorrectableError

/-- spec/42_syndrome_decoder.md R158, with BITFLIP's 1-indexed position: one flipped element of a codeword is found
and corrected. -/
def Obligations.SingleErrorIsCorrected : Prop :=
  ∀ (m j : Nat) (s : State) (c : Vec), 1 ≤ m → s.engine = tables m → IsCodeword m c → j < codeLength m →
    syndrome (tables m) (flip c j) = col (tables m).P j ∧ col (tables m).P j ≠ zeros m ∧
    exec (.bitflip [c] (j + 1)) s = answers s { vec := flip c j } ∧
    exec (.check [flip c j]) s = answers s { flag := false } ∧
    exec (.correct [flip c j]) s = answers s { vec := c, corr := .corrected, index := j } ∧
    exec (.decode [flip c j]) s = answers s { vec := c.take (dataLength m), corr := .corrected, index := j }

/-- spec/42_syndrome_decoder.md R159: two flipped elements are always miscorrected, to a codeword that differs from the
sent one in exactly three elements, and the data word is wrong. -/
def Obligations.DoubleErrorIsMiscorrected : Prop :=
  ∀ (m a b : Nat) (s : State) (c : Vec), 1 ≤ m → s.engine = tables m → IsCodeword m c →
    a < codeLength m → b < codeLength m → a ≠ b →
    syndrome (tables m) (flip (flip c a) b) = xorVec (col (tables m).P a) (col (tables m).P b) ∧
    syndrome (tables m) (flip (flip c a) b) ≠ zeros m ∧
    ∃ t, t < codeLength m ∧ t ≠ a ∧ t ≠ b ∧
      syndrome (tables m) (flip (flip c a) b) = col (tables m).P t ∧
      exec (.correct [flip (flip c a) b]) s =
        answers s { vec := flip (flip (flip c a) b) t, corr := .corrected, index := t } ∧
      IsCodeword m (flip (flip (flip c a) b) t) ∧ flip (flip (flip c a) b) t ≠ c ∧
      (∀ i, i < codeLength m →
        ((flip (flip (flip c a) b) t).getD i false ≠ c.getD i false ↔ i = a ∨ i = b ∨ i = t)) ∧
      exec (.decode [flip (flip c a) b]) s =
        answers s { vec := (flip (flip (flip c a) b) t).take (dataLength m), corr := .corrected, index := t } ∧
      (flip (flip (flip c a) b) t).take (dataLength m) ≠ c.take (dataLength m)

/-- spec/42_syndrome_decoder.md R160: CORRECT of any length-`n` vector answers a codeword, changes at most one element,
and is idempotent with outcome VALID; CHECK of its result answers 1. -/
def Obligations.CorrectionYieldsCodewords : Prop :=
  ∀ (m : Nat) (s s' : State) (v : Vec), 1 ≤ m → s.engine = tables m → s'.engine = tables m →
    v.length = codeLength m → ∃ (u : Vec) (o : Corr) (x : Nat),
      exec (.correct [v]) s = answers s { vec := u, corr := o, index := x } ∧
      syndrome (tables m) u = zeros m ∧
      exec (.correct [u]) s' = answers s' { vec := u, corr := .valid, index := 0 } ∧
      exec (.check [u]) s' = answers s' { flag := true } ∧
      u.length = codeLength m ∧ ∃ j, ∀ i, i ≠ j → u.getD i false = v.getD i false

/-- spec/42_syndrome_decoder.md R150 and R151: the codeword checks of the four requests that take a codeword, the row
count first. -/
def Obligations.CodewordOperandErrors : Prop :=
  ∀ (m : Nat) (s : State) (rows : List Vec) (pos : Int) (i : Instr), 1 ≤ m → s.engine = tables m →
    i = .check rows ∨ i = .correct rows ∨ i = .decode rows ∨ i = .bitflip rows pos →
    (2 ≤ rows.length → exec i s = answers s { status := .error .multiRowInput }) ∧
    (rows = [] → exec i s = answers s { status := .error .invalidCodewordLength }) ∧
    (∀ v : Vec, rows = [v] → v.length ≠ codeLength m →
      exec i s = answers s { status := .error .invalidCodewordLength })

/-! ### BITFLIP -/

/-- spec/43_bitflip.md R190 and R192: a position in `0..n` completes; the element at systematic index `pos − 1`, or 0
for `pos = 0`, changes and no other, and `diag` is 1 iff `pos = 0`. -/
def Obligations.BitflipFlipsOneElement : Prop :=
  ∀ (m : Nat) (s : State) (v : Vec) (pos : Int), 1 ≤ m → s.engine = tables m → v.length = codeLength m →
    0 ≤ pos → pos ≤ codeLength m → ∃ (u : Vec) (j : Nat),
      (pos = 0 → j = 0) ∧ (0 < pos → (j : Int) = pos - 1) ∧ j < codeLength m ∧
      exec (.bitflip [v] pos) s = answers s { vec := u, diag := decide (pos = 0) } ∧
      u.length = codeLength m ∧
      ∀ i, i < codeLength m → u.getD i false = (if i = j then !v.getD i false else v.getD i false)

/-- spec/43_bitflip.md R190: the two position errors. -/
def Obligations.BitflipPositionErrors : Prop :=
  ∀ (m : Nat) (s : State) (v : Vec) (pos : Int), 1 ≤ m → s.engine = tables m → v.length = codeLength m →
    (pos > codeLength m → exec (.bitflip [v] pos) s = answers s { status := .error .positionOutOfRange }) ∧
    (pos < 0 → exec (.bitflip [v] pos) s = answers s { status := .error .negativePosition })

/-- spec/43_bitflip.md R191: `pos = 0` flips the same element as `pos = 1`, succeeds, and only `diag` differs. -/
def Obligations.PositionZeroIsPositionOneWithDiagnostic : Prop :=
  ∀ (m : Nat) (s : State) (v : Vec), 1 ≤ m → s.engine = tables m → v.length = codeLength m → ∃ u : Vec,
    exec (.bitflip [v] 0) s = answers s { status := .ok, vec := u, diag := true } ∧
    exec (.bitflip [v] 1) s = answers s { status := .ok, vec := u, diag := false }

/-! ### Every instruction: completion, frame, errors -/

/-- The frame of every instruction (spec/10_state.md R22, spec/20_memory.md R58): in every state it answers a next
state, with one more response, and every other field of the state as it was. -/
def Obligations.InstructionOnlyAddsOneResponse : Prop :=
  ∀ (i : Instr) (s : State), ∃ t : State, exec i s = .next t ∧
    (∃ r, t.responses = s.responses ++ [r]) ∧
    t.engine = s.engine ∧ t.pending = s.pending ∧ t.reqReady = s.reqReady ∧ t.standing = s.standing ∧
    t.handshakeBroken = s.handshakeBroken ∧ t.freeCount = s.freeCount

/-- spec/60_exceptions.md R202: a request answered with an error gets a response with every other field at its default,
and the state is otherwise unchanged. -/
def Obligations.ErrorResponseHasNoPartialEffect : Prop :=
  ∀ (s t : State) (r : Request) (rest : List Accepted), s.pending = .request r :: rest → step s = .next t →
    ∃ a : Response, t = { s with pending := rest, responses := s.responses ++ [a] } ∧
      ∀ kind, a.status = .error kind →
        a = { status := .error kind, flag := false, corr := .none, index := 0, diag := false, vec := [] }

/-- spec/60_exceptions.md R203, spec/70_reset_and_hazards.md R236: in every state the step answers a next state; a
request is answered with exactly one response. For two states this is the model's choice: that a step with nothing
waiting completes (log entry 3), and that a request without a meaning is answered exactly once (log entry 8). -/
def Obligations.EveryRequestIsAnsweredOnce : Prop :=
  ∀ s : State, ∃ t, step s = .next t ∧
    ∀ a rest, s.pending = a :: rest → t.pending = rest ∧ ∃ r, t.responses = s.responses ++ [r]

/-- spec/10_state.md R22: no operation, no error and no reset writes any part of the engine value, which Construct
wrote at elaboration. -/
def Obligations.EngineValueIsNeverWritten : Prop :=
  (∀ (M : Int) (s : State), State.elaborate M = .ok s → construct M = .ok s.engine) ∧
  (∀ (i : Instr) (s t : State), exec i s = .next t → t.engine = s.engine) ∧
  (∀ s t : State, step s = .next t → t.engine = s.engine) ∧
  ∀ (p : PortParams) (ch : PortChoice) (inp : PortIn) (s t : State), edge p ch inp s = .next t → t.engine = s.engine

/-- spec/20_memory.md R59: one function of the engine value and the request gives the response, whatever else the
state holds: requests waiting, responses produced, the port's bits. -/
def Obligations.ResponseIsAFunctionOfEngineAndRequest : Prop :=
  ∃ op : Engine → Request → Response, ∀ (s : State) (r : Request) (rest : List Accepted),
    s.pending = .request r :: rest → step s = answers { s with pending := rest } (op s.engine r)

/-- spec/20_memory.md R60: a run over the waiting requests answers each exactly once, in the order they were accepted,
after the responses already there. -/
def Obligations.ResponsesComeInAcceptanceOrder : Prop :=
  ∃ op : Engine → Request → Response, ∀ (rs : List Request) (rest : List Accepted) (s : State),
    s.pending = rs.map .request ++ rest →
    core.run rs.length s = .next { s with pending := rest, responses := s.responses ++ rs.map (op s.engine) }

/-! ### The invariant -/

/-- A block just elaborated meets the invariant, for every `M ≥ 1`; so does `State.reset`, which by the model's choice
(log entry 2) is the block elaborated with `M = 3`. That no handshake counts as broken after reset, a clause of the
invariant, is the model's choice too (log entry 8). -/
def Obligations.InvariantHoldsAtElaboration : Prop :=
  (∀ (M : Int) (s : State), State.elaborate M = .ok s → s.Inv) ∧ State.reset.Inv ∧
  State.elaborate 3 = .ok State.reset

/-- Every step keeps the invariant: the engine value stays one that Construct gives, and every response is one the
spec allows (spec/30_encoding.md R78, spec/42_syndrome_decoder.md R156, spec/60_exceptions.md R202, R205). -/
def Obligations.StepKeepsInvariant : Prop :=
  ∀ s t : State, s.Inv → step s = .next t → t.Inv

/-- An edge of the port keeps the invariant while the host holds its offers. What it means to hold an offer, and the
bit of the state that remembers a broken handshake, are the model's choice (log entry 8). -/
def Obligations.EdgeKeepsInvariant : Prop :=
  ∀ (p : PortParams) (ch : PortChoice) (inp : PortIn) (s t : State), s.Inv →
    (inp.rst = false → ∀ offer, s.standing = some offer → inp.reqValid = true ∧ assemble p inp.req = offer) →
    edge p ch inp s = .next t → t.Inv

/-! ### Codes of the response fields -/

/-- spec/60_exceptions.md R200, spec/30_encoding.md R79: the status and `corr` codes; no code is reserved. -/
def Obligations.StatusAndCorrCodes : Prop :=
  statusCode .ok = 0x0#4 ∧ statusCode (.error .invalidParameter) = 0x1#4 ∧
  statusCode (.error .invalidWordLength) = 0x2#4 ∧ statusCode (.error .invalidCodewordLength) = 0x3#4 ∧
  statusCode (.error .invalidWordAlphabet) = 0x4#4 ∧ statusCode (.error .multiRowInput) = 0x5#4 ∧
  statusCode (.error .positionOutOfRange) = 0x6#4 ∧ statusCode (.error .negativePosition) = 0x7#4 ∧
  statusCode (.error .uncorrectableError) = 0x8#4 ∧ statusCode (.error .illegalOperation) = 0x9#4 ∧
  (∀ st : Status, (statusCode st).toNat ≤ 9) ∧
  corrCode .none = 0b00#2 ∧ corrCode .valid = 0b01#2 ∧ corrCode .corrected = 0b10#2 ∧
  ∀ c : Corr, corrCode c ≠ 0b11#2

/-! ### The physical port -/

/-- spec/30_encoding.md R81 to R83, spec/20_memory.md R55. The lanes assemble to a request whose character `i` is bits
`8i+7 .. 8i` of the word lane, whose element `i` of row 0 is bit `i` of the codeword lane, whose row count is the one the
2-bit lane says (2 and 3 both more than one), and whose position is the two's-complement value of its lane. A request
whose named operands fit travels over the lanes and gets the same response. The lanes driven for any request fit the widths of R81. On input, bits at or above an
operand's length are ignored; and lanes that the descriptor does not name, with the length and bits of row 0 where the
row count is not 1 (log entry 9), lead to the same outcome whatever they hold. -/
def Obligations.PortRequestKeepsTheResponse : Prop :=
  (∀ (p : PortParams) (a : PortRequest), (assemble p a).desc = a.desc ∧
    (assemble p a).word.length = a.wordLen ∧
    (∀ i j, i < a.wordLen → j < 8 → ((assemble p a).word.getD i 0#8).getLsbD j = bit a.word (8 * i + j)) ∧
    (a.rows = 0#2 → (assemble p a).rows = []) ∧
    (a.rows ≠ 0#2 → ∃ row further, (assemble p a).rows = row :: further ∧ row.length = a.cwLen ∧
      (∀ i, i < a.cwLen → row.getD i false = bit a.cw i) ∧ (a.rows = 1#2 ↔ further = [])) ∧
    (1 ≤ p.posW → -(2 ^ (p.posW - 1) : Int) ≤ (assemble p a).pos ∧ (assemble p a).pos < (2 ^ (p.posW - 1) : Int) ∧
      (2 ^ p.posW : Int) ∣ (assemble p a).pos - a.pos)) ∧
  (∀ (p : PortParams) (r : Request) (s : State) (rest : List Accepted), 1 ≤ p.posW →
    (∀ i, decode r = .ok i → i.wellFormed p = true) →
    presentable p (driveRequest p r) = true ∧
    step { s with pending := .request (assemble p (driveRequest p r)) :: rest } =
      step { s with pending := .request r :: rest }) ∧
  (∀ (p : PortParams) (r : Request),
    (driveRequest p r).wordLen < 2 ^ lengthWidth p ∧ (driveRequest p r).word < 2 ^ (8 * p.lcap) ∧
    (driveRequest p r).cwLen < 2 ^ lengthWidth p ∧ (driveRequest p r).cw < 2 ^ p.lcap ∧
    (driveRequest p r).pos < 2 ^ p.posW) ∧
  (∀ (p : PortParams) (a b : PortRequest), a.desc = b.desc → a.wordLen = b.wordLen → a.rows = b.rows →
    a.cwLen = b.cwLen → (∀ i, i < 8 * a.wordLen → bit a.word i = bit b.word i) →
    (∀ i, i < a.cwLen → bit a.cw i = bit b.cw i) → (∀ i, i < p.posW → bit a.pos i = bit b.pos i) →
    assemble p a = assemble p b) ∧
  ∀ (p : PortParams) (a b : PortRequest) (s : State) (rest : List Accepted), a.desc = b.desc →
    (a.desc = 0x01#8 → a.wordLen = b.wordLen ∧ ∀ i, i < 8 * a.wordLen → bit a.word i = bit b.word i) →
    (a.desc = 0x02#8 ∨ a.desc = 0x03#8 ∨ a.desc = 0x04#8 ∨ a.desc = 0x05#8 → a.rows = b.rows ∧
      (a.rows = 1#2 → a.cwLen = b.cwLen ∧ ∀ i, i < a.cwLen → bit a.cw i = bit b.cw i)) →
    (a.desc = 0x05#8 → ∀ i, i < p.posW → bit a.pos i = bit b.pos i) →
    step { s with pending := .request (assemble p a) :: rest } =
      step { s with pending := .request (assemble p b) :: rest }

/-- spec/30_encoding.md R81, spec/20_memory.md R55: the response lanes carry each field of the response, `status` and
`corr` as their codes, and `vec` element `i` on bit `i` with 0 above its length; an allowed response fits the lanes'
widths. -/
def Obligations.ResponseLanesCarryTheResponse : Prop :=
  (∀ r : Response, (driveResponse r).status = statusCode r.status ∧ (driveResponse r).flag = r.flag ∧
    (driveResponse r).corr = corrCode r.corr ∧ (driveResponse r).index = r.index ∧
    (driveResponse r).diag = r.diag ∧ (driveResponse r).len = r.vec.length ∧
    ∀ i, bit (driveResponse r).vec i = r.vec.getD i false) ∧
  ∀ (m : Nat) (p : PortParams) (r : Response), p.legal m = true → Response.Allowed (tables m) r →
    unpackBits (driveResponse r).len (driveResponse r).vec = r.vec ∧
    (∀ i, r.vec.length ≤ i → bit (driveResponse r).vec i = false) ∧
    (driveResponse r).len < 2 ^ lengthWidth p ∧ (driveResponse r).vec < 2 ^ p.lcap ∧
    (driveResponse r).index < 2 ^ indexWidth (tables m)

/-- spec/30_encoding.md R76, R83: the position lane is read as two's complement, so every integer of the range comes
back from the lane that carries it. -/
def Obligations.PositionLaneIsTwosComplement : Prop :=
  ∀ (m : Nat) (p : PortParams) (pos : Int), p.legal m = true →
    (posFits p pos = true → sext p.posW (twosComplement p.posW pos) = pos) ∧
    (-1 ≤ pos → pos ≤ codeLength m + 1 → posFits p pos = true)

/-- spec/70_reset_and_hazards.md R231 and R230: `rst` drops what was accepted and not answered, offers no response,
lowers `req_ready` and leaves the engine value; a reissued request gets the response it would have got. The model's
readings and choices in it: a response produced and not taken is dropped too (log entry 6, DEDUCED), `req_ready` is
still low right after the edge once `rst` falls (log entry 15), and no offer stands and a broken handshake is forgotten
(log entry 8). -/
def Obligations.ResetDropsUnansweredRequests : Prop :=
  ∀ (p : PortParams) (ch ch' : PortChoice) (inp : PortIn) (s : State), inp.rst = true →
    (portOutputs ch true s).reqReady = false ∧ (portOutputs ch true s).rspValid = false ∧
    ∃ t, edge p ch inp s = .next t ∧ t.pending = [] ∧ t.responses = [] ∧ t.engine = s.engine ∧
      t.standing = none ∧ t.handshakeBroken = false ∧
      (∀ rst : Bool, (portOutputs ch' rst t).reqReady = false ∧ (portOutputs ch' rst t).rspValid = false) ∧
      ∀ r : Request, ∃ a, step { s with pending := [.request r] } = answers { s with pending := [] } a ∧
        step { t with pending := [.request r] } = answers t a

/-- spec/30_encoding.md R81: a presentable request transfers where `req_valid` and `req_ready` are 1, behind those
already accepted; with no service at the edge nothing is answered. The two premises on the handshake are log entry 8's
reading of what keeping it is. -/
def Obligations.OfferedRequestTransfers : Prop :=
  ∀ (p : PortParams) (ch : PortChoice) (inp : PortIn) (s : State),
    inp.rst = false → inp.reqValid = true → s.reqReady = true → inp.rspReady = false → ch.serve = false →
    s.handshakeBroken = false → (∀ offer, s.standing = some offer → assemble p inp.req = offer) →
    presentable p inp.req = true →
    edge p ch inp s = .next
      { s with pending := s.pending ++ [.request (assemble p inp.req)], standing := none, reqReady := ch.ready }

/-- spec/30_encoding.md R81, spec/70_reset_and_hazards.md R234: without `req_ready` an offer is not accepted; it stands.
That the handshake counts as broken, until reset, iff it was or the request a standing offer assembles to changed, and
that the requests waiting then lose their meaning, is the model's choice (log entry 8). -/
def Obligations.OfferStandsUntilReady : Prop :=
  ∀ (p : PortParams) (ch : PortChoice) (inp : PortIn) (s : State),
    inp.rst = false → inp.reqValid = true → s.reqReady = false → inp.rspReady = false → ch.serve = false →
    ∃ t, edge p ch inp s = .next t ∧ t.responses = s.responses ∧ t.standing = some (assemble p inp.req) ∧
      t.engine = s.engine ∧ t.reqReady = ch.ready ∧
      (t.handshakeBroken = true ↔
        s.handshakeBroken = true ∨ ∃ offer, s.standing = some offer ∧ offer ≠ assemble p inp.req) ∧
      (t.handshakeBroken = false → t.pending = s.pending) ∧
      (t.handshakeBroken = true → t.pending = s.pending.map fun _ => .meaningless)

/-- spec/30_encoding.md R81, spec/20_memory.md R60: over an edge without `rst` the oldest response leaves iff `rsp_ready`
is 1 (and one is offered), the others keep their order, and at most one new one is added behind them. For a host that
keeps the handshake, with `q` the requests waiting and the one that transfers: an edge that serves removes the oldest of
`q` and adds exactly the response the step gives it, and an edge that does not serve leaves `q`. That an edge answers at
most one request, and one that transfers at it among them, is the model's choice (log entry 7); which edges serve is its
argument (log entry 5); that a response stays until it is taken or reset is log entry 16. -/
def Obligations.ResponsesLeaveInOrder : Prop :=
  (∀ (p : PortParams) (ch : PortChoice) (inp : PortIn) (s t : State), inp.rst = false →
    edge p ch inp s = .next t →
    ∃ new : List Response, new.length ≤ 1 ∧ (ch.serve = false → new = []) ∧
      t.responses = (if inp.rspReady = true then s.responses.tail else s.responses) ++ new) ∧
  ∀ (p : PortParams) (ch : PortChoice) (inp : PortIn) (s : State) (q : List Accepted),
    inp.rst = false → s.handshakeBroken = false →
    (∀ offer, s.standing = some offer → inp.reqValid = true ∧ assemble p inp.req = offer) →
    (inp.reqValid = true → s.reqReady = true → presentable p inp.req = true) →
    q = s.pending ++ (if inp.reqValid = true ∧ s.reqReady = true then [.request (assemble p inp.req)] else []) →
    ∃ t, edge p ch inp s = .next t ∧ t.engine = s.engine ∧ t.reqReady = ch.ready ∧ t.handshakeBroken = false ∧
      t.standing = (if inp.reqValid = true ∧ s.reqReady = false then some (assemble p inp.req) else none) ∧
      (ch.serve = false ∨ q = [] →
        t.pending = q ∧ t.responses = if inp.rspReady = true then s.responses.tail else s.responses) ∧
      ∀ (r : Request) (rest : List Accepted), ch.serve = true → q = .request r :: rest → ∃ a : Response,
        step { s with pending := .request r :: rest } = answers { s with pending := rest } a ∧ t.pending = rest ∧
        t.responses = (if inp.rspReady = true then s.responses.tail else s.responses) ++ [a]

/-- spec/30_encoding.md R81: `rsp_valid` is 1 iff a response waits and `rst` is low, and the lanes then carry the oldest
one; `req_ready` is low under `rst`. That `rsp_valid` never falls while a response waits, but under `rst`, is the model's
choice (log entry 16). -/
def Obligations.OldestResponseIsOffered : Prop :=
  ∀ (ch : PortChoice) (rst : Bool) (s : State),
    ((portOutputs ch rst s).rspValid = true ↔ rst = false ∧ s.responses ≠ []) ∧
    (∀ r rest, rst = false → s.responses = r :: rest → (portOutputs ch rst s).rsp = driveResponse r) ∧
    ((portOutputs ch rst s).reqReady = true ↔ rst = false ∧ s.reqReady = true)

/-- The model's reading of spec/70_reset_and_hazards.md R234 and I7 (log entry 8): from the edge at which a host changes
or withdraws a standing offer until reset, every request of its that is unanswered, and every one it transfers, has no
meaning, and no such request is refused; when one is served its response is a free value. The engine value is
untouched. -/
def Obligations.BrokenHandshakeGetsAFreeResponse : Prop :=
  (∀ (p : PortParams) (ch : PortChoice) (inp : PortIn) (s : State), inp.rst = false → ch.serve = false →
    (s.handshakeBroken = true ∨
      ∃ offer, s.standing = some offer ∧ ¬ (inp.reqValid = true ∧ assemble p inp.req = offer)) →
    ∃ t, edge p ch inp s = .next t ∧ t.handshakeBroken = true ∧ t.engine = s.engine ∧ t.freeCount = s.freeCount ∧
      t.responses = (if inp.rspReady = true then s.responses.tail else s.responses) ∧
      t.pending = (s.pending.map fun _ => .meaningless) ++
        (if inp.reqValid = true ∧ s.reqReady = true then [.meaningless] else []) ∧
      t.standing = (if inp.reqValid = true ∧ s.reqReady = false then some (assemble p inp.req) else none)) ∧
  (∀ (s : State) (rest : List Accepted), s.pending = .meaningless :: rest →
    step s = .next
      { s with pending := rest, freeCount := s.freeCount + 1,
               responses := s.responses ++ [Config.freeResponse s.freeCount] }) ∧
  ∀ (p : PortParams) (ch : PortChoice) (inp : PortIn) (s t : State), inp.rst = false →
    s.handshakeBroken = true → edge p ch inp s = .next t → t.handshakeBroken = true

/-- spec/30_encoding.md R82, spec/93_implementation_defined.md I10: the edge refuses an accepted request whose named
operand is longer than `LCAP`, and no other. By the model's reading only the lanes the descriptor names count, and the
length of row 0 only where there is one row (log entry 9, DEDUCED), so a longer row 0 of several rows is not refused;
and a request of a host that broke the handshake is not refused (log entry 8). -/
def Obligations.OnlyUnpresentableRequestsAreRefused : Prop :=
  ∀ (p : PortParams) (ch : PortChoice) (inp : PortIn) (s : State),
    (∃ r, edge p ch inp s = .refused r) ↔
      inp.rst = false ∧ inp.reqValid = true ∧ s.reqReady = true ∧ s.handshakeBroken = false ∧
      (∀ offer, s.standing = some offer → assemble p inp.req = offer) ∧
      ((inp.req.desc = 0x01#8 ∧ p.lcap < inp.req.wordLen) ∨
       ((inp.req.desc = 0x02#8 ∨ inp.req.desc = 0x03#8 ∨ inp.req.desc = 0x04#8 ∨ inp.req.desc = 0x05#8) ∧
         inp.req.rows = 1#2 ∧ p.lcap < inp.req.cwLen))

/-! ### The assembler syntax -/

/-- spec/30_encoding.md R84, with each name in any case of its letters (`name.map Char.toUpper` is the one in
capitals). Every instruction's line reads back as its request: words as explicit codes, codewords, and any integer
position. A quoted word is its characters in order, none trimmed. CHECK, CORRECT, DECODE, BITFLIP and a raw descriptor
take every text of a codeword: `ROWS0`, or rows with optional spaces inside them in an explicit list, where a single row
may stand alone; BITFLIP with it any integer. A raw descriptor takes no operand, a word, a codeword, or a codeword and a
position. The codes of quoted characters other than `0` and `1`, and the operand forms of a raw descriptor and the case
of its name, are the model's choice (log entry 13). -/
def Obligations.AssemblerReadsOperandsInOrder : Prop :=
  (∀ (i : Instr) (name : List Char), name.map Char.toUpper = Asm.mnemonicText i →
    Asm.parse (Asm.lineText name (Asm.operandText i)) = some (encode i)) ∧
  (∀ (w name : List Char) (word : List Char8), (∀ c ∈ w, c ≠ '"' ∧ c.toNat < 256) →
    word = w.map (fun c => BitVec.ofNat 8 c.toNat) →
    (name.map Char.toUpper = Asm.mnemonicText (.encode word) →
      Asm.parse (Asm.lineText name ('"' :: w ++ ['"'])) = some (encode (.encode word))) ∧
    (name.map Char.toUpper = Asm.rawName → ∀ d : Desc,
      Asm.parse (Asm.rawText name d (' ' :: '"' :: w ++ ['"'])) = some { desc := d, word := word })) ∧
  (∀ (cw name : List Char) (rows : List Vec), Asm.IsCodewordText cw rows →
    (∀ i : Instr, i = .check rows ∨ i = .correct rows ∨ i = .decode rows →
      name.map Char.toUpper = Asm.mnemonicText i → Asm.parse (Asm.lineText name cw) = some (encode i)) ∧
    (∀ pos : Int, name.map Char.toUpper = Asm.mnemonicText (.bitflip rows pos) →
      Asm.parse (Asm.lineText name (Asm.withPosition cw pos)) = some (encode (.bitflip rows pos))) ∧
    (name.map Char.toUpper = Asm.rawName → ∀ (d : Desc) (pos : Int),
      Asm.parse (Asm.rawText name d (' ' :: cw)) = some { desc := d, rows := rows } ∧
      Asm.parse (Asm.rawText name d (' ' :: Asm.withPosition cw pos)) =
        some { desc := d, rows := rows, pos := pos })) ∧
  ∀ (d : Desc) (name : List Char) (word : List Char8), name.map Char.toUpper = Asm.rawName →
    Asm.parse (Asm.rawText name d []) = some { desc := d } ∧
    Asm.parse (Asm.rawText name d (' ' :: Asm.wordText word)) = some { desc := d, word := word }
end

