-- ==== Sys2Proof/Laws/Gf2.lean ====
section
/-! SUPPORT. The small lemmas of the GF(2) operations and of bus packing. -/

namespace Sys2Proof.Machine

@[simp] theorem bit_eq_testBit (x i : Nat) : bit x i = x.testBit i := by
  simp [bit, Nat.testBit_eq_decide_div_mod_eq, BEq.beq]

@[simp] theorem xorSum_nil : xorSum [] = false := rfl

@[simp] theorem xorSum_cons (b : Bit) (l : List Bit) : xorSum (b :: l) = xor b (xorSum l) := rfl

@[simp] theorem xorSum_append (l r : List Bit) : xorSum (l ++ r) = xor (xorSum l) (xorSum r) := by
  induction l with
  | nil => simp
  | cons b l ih => simp [ih]

theorem xorSum_map_xor {α : Type} (l : List α) (f g : α → Bit) :
    xorSum (l.map fun a => xor (f a) (g a)) = xor (xorSum (l.map f)) (xorSum (l.map g)) := by
  induction l with
  | nil => rfl
  | cons a l ih => simp [ih, Bool.xor_left_comm]

@[simp] theorem length_zeros (j : Nat) : (zeros j).length = j := by simp [zeros]

@[simp] theorem length_flip (v : Vec) (j : Nat) : (flip v j).length = v.length := by simp [flip]

@[simp] theorem length_mulVec (X : Matrix) (v : Vec) : (mulVec X v).length = X.length := by simp [mulVec]

@[simp] theorem length_vecMul (w : Vec) (X : Matrix) (n : Nat) : (vecMul w X n).length = n := by simp [vecMul]

@[simp] theorem length_col (X : Matrix) (b : Nat) : (col X b).length = X.length := by simp [col]

@[simp] theorem length_identity (k : Nat) : (identity k).length = k := by simp [identity]

@[simp] theorem length_transpose (X : Matrix) (n : Nat) : (transpose X n).length = n := by simp [transpose]

@[simp] theorem length_unpackBits (n x : Nat) : (unpackBits n x).length = n := by simp [unpackBits]

@[simp] theorem length_unpackChars (n x : Nat) : (unpackChars n x).length = n := by simp [unpackChars]

theorem length_xorVec (v u : Vec) (h : v.length = u.length) : (xorVec v u).length = v.length := by
  simp [xorVec, h]

@[simp] theorem getElem?_zeros_getD (n i : Nat) : (zeros n)[i]?.getD false = false := by
  simp only [zeros, List.getElem?_replicate]; split <;> rfl

@[simp] theorem packBits_zeros (n : Nat) : packBits (zeros n) = 0 := by
  unfold zeros
  induction n with
  | zero => rfl
  | succ n ih => simp [List.replicate_succ, packBits] at ih ⊢; exact ih

/-- `flip` changes the element it names, where there is one, and no other. -/
theorem getD_flip (v : Vec) (j i : Nat) :
    (flip v j).getD i false = if i = j ∧ i < v.length then !v.getD i false else v.getD i false := by
  by_cases h : i < v.length
  · by_cases e : j = i
    · simp [flip, List.getD_eq_getElem?_getD, h, e]
    · simp [flip, List.getD_eq_getElem?_getD, h, e, Ne.symm e]
  · simp [flip, List.getD_eq_getElem?_getD, h]

theorem getD_xorVec (v u : Vec) (h : v.length = u.length) (i : Nat) :
    (xorVec v u).getD i false = xor (v.getD i false) (u.getD i false) := by
  by_cases hi : i < v.length
  · simp [xorVec, List.getD_eq_getElem?_getD, hi, h ▸ hi]
  · have hu : ¬ i < u.length := h ▸ hi
    simp [xorVec, List.getD_eq_getElem?_getD, hi, hu]

theorem getD_col (X : Matrix) (b i : Nat) : (col X b).getD i false = entry X i b := by
  by_cases hi : i < X.length <;> simp [col, entry, List.getD_eq_getElem?_getD, hi]

theorem getD_vecMul (w : Vec) (X : Matrix) (n b : Nat) (h : b < n) :
    (vecMul w X n).getD b false = dot w (col X b) := by
  simp [vecMul, List.getD_eq_getElem?_getD, h]

theorem getD_mulVec (X : Matrix) (v : Vec) (i : Nat) (h : i < X.length) :
    (mulVec X v).getD i false = dot (X.getD i []) v := by
  simp [mulVec, List.getD_eq_getElem?_getD, h]

theorem entry_identity (k a b : Nat) (ha : a < k) (hb : b < k) : entry (identity k) a b = decide (a = b) := by
  simp [entry, identity, List.getD_eq_getElem?_getD, ha, hb]; rfl

theorem entry_transpose (X : Matrix) (n a b : Nat) (ha : a < n) : entry (transpose X n) a b = entry X b a := by
  have := getD_col X a b
  simpa [entry, transpose, List.getD_eq_getElem?_getD, ha] using this

/-- The inner product of two vectors of one length, as a sum over their indices. -/
theorem dot_eq_sum_range (v u : Vec) (h : v.length = u.length) :
    dot v u = xorSum ((List.range v.length).map fun c => v.getD c false && u.getD c false) := by
  unfold dot
  congr 1
  refine List.ext_getElem (by simp [h]) fun i h1 h2 => ?_
  have hv : i < v.length := by simpa using h2
  simp [List.getD_eq_getElem?_getD, hv, h ▸ hv]

theorem dot_comm (v u : Vec) : dot v u = dot u v := by
  unfold dot
  rw [List.zipWith_comm]
  simp [Bool.and_comm]

/-- The inner product is linear in its first argument. -/
theorem dot_xorVec (v u r : Vec) (h : v.length = u.length) : dot (xorVec v u) r = xor (dot v r) (dot u r) := by
  induction v generalizing u r with
  | nil => cases u <;> simp_all [dot, xorVec]
  | cons a v ih =>
    cases u with
    | nil => simp at h
    | cons b u =>
      cases r with
      | nil => simp [dot, xorVec]
      | cons c r =>
        have := ih u r (by simpa using h)
        simp only [dot, xorVec, List.zipWith_cons_cons, xorSum_cons] at this ⊢
        rw [this]
        cases a <;> cases b <;> cases c <;> simp

@[simp] theorem packBits_nil : packBits [] = 0 := rfl

theorem packBits_cons (b : Bit) (v : Vec) : packBits (b :: v) = b.toNat + 2 * packBits v := rfl

/-- Bit `i` of a packed vector is its element `i`, and 0 above its length. -/
theorem testBit_packBits (v : Vec) (i : Nat) : (packBits v).testBit i = v.getD i false := by
  induction v generalizing i with
  | nil => simp
  | cons b v ih =>
    cases i with
    | zero => cases b <;> simp [packBits_cons, Nat.testBit_zero, Nat.add_mul_mod_self_left]
    | succ i =>
      have : (packBits (b :: v)) / 2 = packBits v := by
        cases b <;> (simp [packBits_cons]; try omega)
      rw [Nat.testBit_succ, this, ih]; rfl

theorem packBits_lt (v : Vec) : packBits v < 2 ^ v.length := by
  induction v with
  | nil => simp
  | cons b v ih => cases b <;> (simp [packBits_cons, Nat.pow_succ]; omega)

/-- Unpacking gives back the vector that was packed. -/
theorem unpackBits_packBits (v : Vec) : unpackBits v.length (packBits v) = v := by
  refine List.ext_getElem (by simp) fun i h1 h2 => ?_
  simp [unpackBits, testBit_packBits, List.getD_eq_getElem?_getD, h2]

/-- Two vectors of one length with one packed value are equal. -/
theorem packBits_injective (v u : Vec) (h : v.length = u.length) (hp : packBits v = packBits u) : v = u := by
  rw [← unpackBits_packBits v, ← unpackBits_packBits u, h, hp]

theorem packChars_cons (c : Char8) (w : List Char8) : packChars (c :: w) = c.toNat + 256 * packChars w := rfl

theorem packChars_lt (w : List Char8) : packChars w < 2 ^ (8 * w.length) := by
  induction w with
  | nil => simp [packChars]
  | cons c w ih =>
    have hc : c.toNat < 256 := c.isLt
    rw [packChars_cons, List.length_cons, Nat.mul_succ, Nat.pow_add]
    omega

/-- Unpacking gives back the word that was packed. -/
theorem unpackChars_packChars (w : List Char8) : unpackChars w.length (packChars w) = w := by
  induction w with
  | nil => rfl
  | cons c w ih =>
    have hc : c.toNat < 256 := c.isLt
    have hd : (packChars (c :: w)) / 256 = packChars w := by rw [packChars_cons]; omega
    have hm : BitVec.ofNat 8 (packChars (c :: w)) = c := by
      apply BitVec.eq_of_toNat_eq
      rw [packChars_cons]
      simp
      omega
    have hs : ∀ i, packChars (c :: w) / 2 ^ (8 * (i + 1)) = packChars w / 2 ^ (8 * i) := by
      intro i
      rw [show 8 * (i + 1) = 8 + 8 * i by omega, Nat.pow_add, ← Nat.div_div_eq_div_mul]
      rw [show (2 : Nat) ^ 8 = 256 by rfl, hd]
    conv_rhs => rw [← ih]
    simp [unpackChars, List.range_succ_eq_map, hs, hm]

end Sys2Proof.Machine
end

