-- ==== Sys2Proof/Laws/Construct.lean ====
section
/-! SUPPORT. The shapes of the tables and the lists they are built from. -/

namespace Sys2Proof.Machine

@[simp] theorem tables_m (m : Nat) : (tables m).m = m := rfl
@[simp] theorem tables_n (m : Nat) : (tables m).n = codeLength m := rfl
@[simp] theorem tables_k (m : Nat) : (tables m).k = dataLength m := rfl
@[simp] theorem tables_dataPos (m : Nat) : (tables m).dataPos = dataPositions (codeLength m) := rfl
@[simp] theorem tables_parPos (m : Nat) : (tables m).parPos = parityPositions (codeLength m) := rfl
@[simp] theorem tables_E (m : Nat) : (tables m).E = identity (dataLength m) := rfl

theorem tables_R (m : Nat) :
    (tables m).R = responsibilityMap (dataPositions (codeLength m)) (dataLength m) m := rfl

theorem tables_A (m : Nat) : (tables m).A = parityMatrix (identity (dataLength m)) (dataLength m) (tables m).R := rfl

theorem tables_G (m : Nat) :
    (tables m).G = generatorMatrix (identity (dataLength m)) (tables m).A (dataLength m) := rfl

theorem tables_P (m : Nat) : (tables m).P = checkMatrix (tables m).A m := rfl

/-- `construct` gives the tables of `M`, or fails where `M < 1`. -/
theorem construct_cases (M : Int) :
    (M < 1 ∧ construct M = .error .invalidParameter) ∨ (1 ≤ M ∧ construct M = .ok (tables M.toNat)) := by
  unfold construct
  by_cases h : M < 1
  · exact .inl ⟨h, if_pos h⟩
  · exact .inr ⟨by omega, if_neg h⟩

theorem le_codeLength (m : Nat) : m ≤ codeLength m := by
  have : m < 2 ^ m := Nat.lt_two_pow_self
  unfold codeLength; omega

theorem codeLength_pos {m : Nat} (h : 1 ≤ m) : 1 ≤ codeLength m := Nat.le_trans h (le_codeLength m)

/-- `n = k + m`. -/
theorem dataLength_add (m : Nat) : dataLength m + m = codeLength m := by
  have := le_codeLength m
  unfold dataLength; omega

theorem codeLength_lt (m : Nat) : codeLength m < 2 ^ m := by
  have : 0 < 2 ^ m := Nat.two_pow_pos m
  unfold codeLength; omega

theorem mem_positions (n p : Nat) : p ∈ positions n ↔ 1 ≤ p ∧ p ≤ n := by
  simp [positions, List.mem_range'_1]; omega

theorem mem_dataPositions (n p : Nat) : p ∈ dataPositions n ↔ (1 ≤ p ∧ p ≤ n) ∧ isParity p = false := by
  simp [dataPositions, mem_positions]

theorem mem_parityPositions (n p : Nat) : p ∈ parityPositions n ↔ (1 ≤ p ∧ p ≤ n) ∧ isParity p = true := by
  simp [parityPositions, mem_positions]

theorem mem_responsibilitySet (dataPos : List Nat) (k i j : Nat) :
    j ∈ responsibilitySet dataPos k i ↔ j < k ∧ bit (dataPos.getD j 0) i = true := by
  simp [responsibilitySet]

theorem nodup_responsibilitySet (dataPos : List Nat) (k i : Nat) : (responsibilitySet dataPos k i).Nodup :=
  List.nodup_range.filter _

@[simp] theorem length_tables_R (m : Nat) : (tables m).R.length = m := by simp [tables_R, responsibilityMap]

@[simp] theorem length_tables_A (m : Nat) : (tables m).A.length = m := by simp [tables_A, parityMatrix]

@[simp] theorem length_tables_G (m : Nat) : (tables m).G.length = dataLength m := by
  simp [tables_G, generatorMatrix]

@[simp] theorem length_tables_P (m : Nat) : (tables m).P.length = m := by
  simp [tables_P, checkMatrix, hcat]

/-- Every row of the identity has its length. -/
theorem length_row_identity (k : Nat) : ∀ row ∈ identity k, row.length = k := by
  simp [identity]

/-- A sum of rows of the identity has their length. -/
theorem length_parityRow (k : Nat) (set : List Nat) (h : ∀ j ∈ set, j < k) :
    (parityRow (identity k) k set).length = k := by
  induction set with
  | nil => simp [parityRow]
  | cons j set ih =>
    have ih := ih fun j hj => h j (List.mem_cons_of_mem _ hj)
    have hj : ((identity k).getD j []).length = k := by
      have hlt := h j (by simp)
      simp [identity, List.getD_eq_getElem?_getD, hlt]
    simp only [parityRow, List.foldr_cons] at ih ⊢
    rw [length_xorVec _ _ (by rw [hj, ih]), hj]

/-- A sum of distinct rows of the identity is 1 exactly at the rows it names. -/
theorem getD_parityRow (k : Nat) (set : List Nat) (h : ∀ j ∈ set, j < k) (hn : set.Nodup) (j : Nat) (hj : j < k) :
    (parityRow (identity k) k set).getD j false = decide (j ∈ set) := by
  induction set with
  | nil => simp [parityRow]
  | cons a set ih =>
    have ha : a < k := h a (by simp)
    have hs : ∀ j ∈ set, j < k := fun j hj => h j (by simp [hj])
    have hrow : ((identity k).getD a []).length = k := by simp [identity, List.getD_eq_getElem?_getD, ha]
    have hentry := entry_identity k a j ha hj
    unfold entry at hentry
    show (xorVec ((identity k).getD a []) (parityRow (identity k) k set)).getD j false = _
    rw [getD_xorVec _ _ (by rw [hrow, length_parityRow k set hs]), ih hs (List.nodup_cons.1 hn).2, hentry]
    by_cases e : a = j
    · subst e; simp [(List.nodup_cons.1 hn).1]
    · by_cases hm : j ∈ set <;> simp [e, Ne.symm e, hm]

/-- Every row of `A` has length `k`. -/
theorem length_row_tables_A (m i : Nat) (hi : i < m) : ((tables m).A.getD i []).length = dataLength m := by
  have : (tables m).A.getD i [] = parityRow (identity (dataLength m)) (dataLength m)
      (responsibilitySet (dataPositions (codeLength m)) (dataLength m) i) := by
    simp [tables_A, tables_R, parityMatrix, responsibilityMap, List.getD_eq_getElem?_getD, hi]
  rw [this]
  exact length_parityRow _ _ fun j hj => ((mem_responsibilitySet _ _ _ _).1 hj).1

end Sys2Proof.Machine
end

