-- ==== Sys2Proof/Laws/Decode.lean ====
section
/-! SUPPORT. What the decoder answers for each descriptor. -/

namespace Sys2Proof

@[simp] theorem decode_0x01 (word : List Char8) (rows : List Vec) (pos : Int) :
    decode { desc := 0x01#8, word, rows, pos } = .ok (.encode word) := by simp [decode, rsvField, opField]

@[simp] theorem decode_0x02 (word : List Char8) (rows : List Vec) (pos : Int) :
    decode { desc := 0x02#8, word, rows, pos } = .ok (.check rows) := by simp [decode, rsvField, opField]

@[simp] theorem decode_0x03 (word : List Char8) (rows : List Vec) (pos : Int) :
    decode { desc := 0x03#8, word, rows, pos } = .ok (.correct rows) := by simp [decode, rsvField, opField]

@[simp] theorem decode_0x04 (word : List Char8) (rows : List Vec) (pos : Int) :
    decode { desc := 0x04#8, word, rows, pos } = .ok (.decode rows) := by simp [decode, rsvField, opField]

@[simp] theorem decode_0x05 (word : List Char8) (rows : List Vec) (pos : Int) :
    decode { desc := 0x05#8, word, rows, pos } = .ok (.bitflip rows pos) := by simp [decode, rsvField, opField]

/-- The five descriptors are the only ones whose reserved field is 0 and whose operation field is in use. -/
theorem descriptor_fields : ∀ desc : Desc,
    (desc = 0x01#8 ∨ desc = 0x02#8 ∨ desc = 0x03#8 ∨ desc = 0x04#8 ∨ desc = 0x05#8) ∨ rsvField desc ≠ 0b00000#5 ∨
    rsvField desc = 0b00000#5 ∧ (opField desc = 0b000#3 ∨ opField desc = 0b110#3 ∨ opField desc = 0b111#3) := by
  decide

/-- A descriptor is one of the five of the table, or the decoder rejects it whatever the operands. -/
theorem decode_descriptor_cases (desc : Desc) :
    (desc = 0x01#8 ∨ desc = 0x02#8 ∨ desc = 0x03#8 ∨ desc = 0x04#8 ∨ desc = 0x05#8) ∨
    ∃ e, ∀ (word : List Char8) (rows : List Vec) (pos : Int), decode { desc, word, rows, pos } = .error e := by
  rcases descriptor_fields desc with h | h | ⟨h, e⟩
  · exact .inl h
  · exact .inr ⟨.reservedField, fun word rows pos => by simp [decode, h]⟩
  · refine .inr ⟨.reservedOp, fun word rows pos => ?_⟩
    rcases e with e | e | e <;> simp [decode, h, e]

end Sys2Proof
end

