-- ==== Sys2Proof/Laws/State.lean ====
section
/-! SUPPORT. One lemma per field of State for each update of it. -/

namespace Sys2Proof.Machine

@[simp] theorem State.answer_engine (s : State) (r : Response) : (s.answer r).engine = s.engine := rfl
@[simp] theorem State.answer_pending (s : State) (r : Response) : (s.answer r).pending = s.pending := rfl
@[simp] theorem State.answer_responses (s : State) (r : Response) : (s.answer r).responses = s.responses ++ [r] := rfl
@[simp] theorem State.answer_reqReady (s : State) (r : Response) : (s.answer r).reqReady = s.reqReady := rfl
@[simp] theorem State.answer_standing (s : State) (r : Response) : (s.answer r).standing = s.standing := rfl
@[simp] theorem State.answer_handshakeBroken (s : State) (r : Response) : (s.answer r).handshakeBroken = s.handshakeBroken := rfl
@[simp] theorem State.answer_freeCount (s : State) (r : Response) : (s.answer r).freeCount = s.freeCount := rfl

@[simp] theorem answerReserved_engine (s : State) : (answerReserved s).engine = s.engine := rfl
@[simp] theorem answerReserved_pending (s : State) : (answerReserved s).pending = s.pending := rfl
@[simp] theorem answerReserved_responses (s : State) : (answerReserved s).responses = s.responses ++ [errorResponse .illegalOperation] := rfl
@[simp] theorem answerReserved_reqReady (s : State) : (answerReserved s).reqReady = s.reqReady := rfl
@[simp] theorem answerReserved_standing (s : State) : (answerReserved s).standing = s.standing := rfl
@[simp] theorem answerReserved_handshakeBroken (s : State) : (answerReserved s).handshakeBroken = s.handshakeBroken := rfl
@[simp] theorem answerReserved_freeCount (s : State) : (answerReserved s).freeCount = s.freeCount := rfl

@[simp] theorem answerMeaningless_engine (s : State) : (answerMeaningless s).engine = s.engine := rfl
@[simp] theorem answerMeaningless_pending (s : State) : (answerMeaningless s).pending = s.pending := rfl
@[simp] theorem answerMeaningless_responses (s : State) : (answerMeaningless s).responses = s.responses ++ [Config.freeResponse s.freeCount] := rfl
@[simp] theorem answerMeaningless_reqReady (s : State) : (answerMeaningless s).reqReady = s.reqReady := rfl
@[simp] theorem answerMeaningless_standing (s : State) : (answerMeaningless s).standing = s.standing := rfl
@[simp] theorem answerMeaningless_handshakeBroken (s : State) : (answerMeaningless s).handshakeBroken = s.handshakeBroken := rfl
@[simp] theorem answerMeaningless_freeCount (s : State) : (answerMeaningless s).freeCount = s.freeCount + 1 := rfl

@[simp] theorem applyReset_engine (s : State) : (applyReset s).engine = s.engine := rfl
@[simp] theorem applyReset_pending (s : State) : (applyReset s).pending = [] := rfl
@[simp] theorem applyReset_responses (s : State) : (applyReset s).responses = [] := rfl
@[simp] theorem applyReset_reqReady (s : State) : (applyReset s).reqReady = false := rfl
@[simp] theorem applyReset_standing (s : State) : (applyReset s).standing = none := rfl
@[simp] theorem applyReset_handshakeBroken (s : State) : (applyReset s).handshakeBroken = false := rfl
@[simp] theorem applyReset_freeCount (s : State) : (applyReset s).freeCount = s.freeCount := rfl

@[simp] theorem State.afterReset_engine (e : Engine) : (State.afterReset e).engine = e := rfl
@[simp] theorem State.afterReset_pending (e : Engine) : (State.afterReset e).pending = [] := rfl
@[simp] theorem State.afterReset_responses (e : Engine) : (State.afterReset e).responses = [] := rfl
@[simp] theorem State.afterReset_reqReady (e : Engine) : (State.afterReset e).reqReady = false := rfl
@[simp] theorem State.afterReset_standing (e : Engine) : (State.afterReset e).standing = none := rfl
@[simp] theorem State.afterReset_handshakeBroken (e : Engine) : (State.afterReset e).handshakeBroken = false := rfl
@[simp] theorem State.afterReset_freeCount (e : Engine) : (State.afterReset e).freeCount = 0 := rfl

@[simp] theorem State.withFetchWord_engine (s : State) (b w : Nat) : (s.withFetchWord b w).engine = s.engine := rfl
@[simp] theorem State.withFetchWord_pending (s : State) (b w : Nat) : (s.withFetchWord b w).pending = .request (requestOfWord w) :: s.pending := rfl
@[simp] theorem State.withFetchWord_responses (s : State) (b w : Nat) : (s.withFetchWord b w).responses = s.responses := rfl
@[simp] theorem State.withFetchWord_reqReady (s : State) (b w : Nat) : (s.withFetchWord b w).reqReady = s.reqReady := rfl
@[simp] theorem State.withFetchWord_standing (s : State) (b w : Nat) : (s.withFetchWord b w).standing = s.standing := rfl
@[simp] theorem State.withFetchWord_handshakeBroken (s : State) (b w : Nat) : (s.withFetchWord b w).handshakeBroken = s.handshakeBroken := rfl
@[simp] theorem State.withFetchWord_freeCount (s : State) (b w : Nat) : (s.withFetchWord b w).freeCount = s.freeCount := rfl

@[simp] theorem takeResponse_engine (inp : PortIn) (s : State) : (takeResponse inp s).engine = s.engine := by
  unfold takeResponse; split <;> rfl
@[simp] theorem takeResponse_pending (inp : PortIn) (s : State) : (takeResponse inp s).pending = s.pending := by
  unfold takeResponse; split <;> rfl
@[simp] theorem takeResponse_reqReady (inp : PortIn) (s : State) : (takeResponse inp s).reqReady = s.reqReady := by
  unfold takeResponse; split <;> rfl
@[simp] theorem takeResponse_standing (inp : PortIn) (s : State) : (takeResponse inp s).standing = s.standing := by
  unfold takeResponse; split <;> rfl
@[simp] theorem takeResponse_handshakeBroken (inp : PortIn) (s : State) : (takeResponse inp s).handshakeBroken = s.handshakeBroken := by
  unfold takeResponse; split <;> rfl
@[simp] theorem takeResponse_freeCount (inp : PortIn) (s : State) : (takeResponse inp s).freeCount = s.freeCount := by
  unfold takeResponse; split <;> rfl

@[simp] theorem takeResponse_responses (inp : PortIn) (s : State) :
    (takeResponse inp s).responses = if inp.rspReady then s.responses.tail else s.responses := by
  unfold takeResponse; split <;> rfl

@[simp] theorem State.accept_engine (s : State) (a : Accepted) : (s.accept a).engine = s.engine := rfl
@[simp] theorem State.accept_pending (s : State) (a : Accepted) : (s.accept a).pending = s.pending ++ [a] := rfl
@[simp] theorem State.accept_responses (s : State) (a : Accepted) : (s.accept a).responses = s.responses := rfl
@[simp] theorem State.accept_reqReady (s : State) (a : Accepted) : (s.accept a).reqReady = s.reqReady := rfl
@[simp] theorem State.accept_standing (s : State) (a : Accepted) : (s.accept a).standing = none := rfl
@[simp] theorem State.accept_handshakeBroken (s : State) (a : Accepted) : (s.accept a).handshakeBroken = s.handshakeBroken := rfl
@[simp] theorem State.accept_freeCount (s : State) (a : Accepted) : (s.accept a).freeCount = s.freeCount := rfl

@[simp] theorem loseMeaning_engine (s : State) : (loseMeaning s).engine = s.engine := rfl
@[simp] theorem loseMeaning_pending (s : State) : (loseMeaning s).pending = s.pending.map fun _ => .meaningless := rfl
@[simp] theorem loseMeaning_responses (s : State) : (loseMeaning s).responses = s.responses := rfl
@[simp] theorem loseMeaning_reqReady (s : State) : (loseMeaning s).reqReady = s.reqReady := rfl
@[simp] theorem loseMeaning_standing (s : State) : (loseMeaning s).standing = s.standing := rfl
@[simp] theorem loseMeaning_handshakeBroken (s : State) : (loseMeaning s).handshakeBroken = true := rfl
@[simp] theorem loseMeaning_freeCount (s : State) : (loseMeaning s).freeCount = s.freeCount := rfl

@[simp] theorem judgeHandshake_engine (p : PortParams) (inp : PortIn) (s : State) :
    (judgeHandshake p inp s).engine = s.engine := by
  unfold judgeHandshake; split <;> rfl

@[simp] theorem judgeHandshake_responses (p : PortParams) (inp : PortIn) (s : State) :
    (judgeHandshake p inp s).responses = s.responses := by
  unfold judgeHandshake; split <;> rfl

@[simp] theorem judgeHandshake_reqReady (p : PortParams) (inp : PortIn) (s : State) :
    (judgeHandshake p inp s).reqReady = s.reqReady := by
  unfold judgeHandshake; split <;> rfl

@[simp] theorem judgeHandshake_standing (p : PortParams) (inp : PortIn) (s : State) :
    (judgeHandshake p inp s).standing = s.standing := by
  unfold judgeHandshake; split <;> rfl

@[simp] theorem judgeHandshake_freeCount (p : PortParams) (inp : PortIn) (s : State) :
    (judgeHandshake p inp s).freeCount = s.freeCount := by
  unfold judgeHandshake; split <;> rfl

@[simp] theorem judgeHandshake_handshakeBroken (p : PortParams) (inp : PortIn) (s : State) :
    (judgeHandshake p inp s).handshakeBroken = (s.handshakeBroken || breaksHandshake p inp s) := by
  unfold judgeHandshake; split <;> simp_all

@[simp] theorem breaksHandshake_takeResponse (p : PortParams) (inp : PortIn) (s : State) :
    breaksHandshake p inp (takeResponse inp s) = breaksHandshake p inp s := by
  simp [breaksHandshake]

/-- A host keeps the handshake iff every standing offer is offered again, the same request. -/
theorem breaksHandshake_eq_false_iff (p : PortParams) (inp : PortIn) (s : State) :
    breaksHandshake p inp s = false ↔
      ∀ offer, s.standing = some offer → inp.reqValid = true ∧ assemble p inp.req = offer := by
  unfold breaksHandshake; split <;> simp_all

/-- A host that keeps the handshake leaves the state as it is. -/
theorem judgeHandshake_held {p : PortParams} {inp : PortIn} {s : State}
    (h : (s.handshakeBroken || breaksHandshake p inp s) = false) : judgeHandshake p inp s = s := by
  simp [judgeHandshake, h]

/-- A host that broke the handshake loses the meaning of its requests. -/
theorem judgeHandshake_broken {p : PortParams} {inp : PortIn} {s : State}
    (h : (s.handshakeBroken || breaksHandshake p inp s) = true) : judgeHandshake p inp s = loseMeaning s := by
  simp [judgeHandshake, h]

/-- A block that `elaborate` gives is the one after reset with the engine value Construct gives. -/
theorem State.elaborate_ok {M : Int} {s : State} (h : State.elaborate M = .ok s) :
    1 ≤ M ∧ s = .afterReset (tables M.toNat) := by
  unfold State.elaborate construct at h
  split at h
  · cases h
  · injection h with h
    exact ⟨by omega, h.symm⟩

end Sys2Proof.Machine
end

