-- ==== Sys2Proof/Laws/Ops.lean ====
section
/-! SUPPORT. What each shared operation can answer, said once: operands, correction, the step, the port's edge. -/

namespace Sys2Proof.Machine

/-- An accepted word, and the bits it stands for. -/
theorem dataWord_ok {e : Engine} {word : List Char8} {w : Vec} (h : dataWord e word = .ok w) :
    word.length = e.k ∧ (∀ c ∈ word, isWordChar c = true) ∧ w = word.map charBit := by
  unfold dataWord at h
  split at h
  · cases h
  · split at h
    · next hl ha => exact ⟨by simpa using hl, by simpa using ha, by injection h with h; exact h.symm⟩
    · cases h

/-- The two errors of an ENCODE word. -/
theorem dataWord_error {e : Engine} {word : List Char8} {kind : ErrorKind} (h : dataWord e word = .error kind) :
    kind = .invalidWordLength ∨ kind = .invalidWordAlphabet := by
  unfold dataWord at h
  split at h
  · injection h with h; exact .inl h.symm
  · split at h
    · cases h
    · injection h with h; exact .inr h.symm

/-- A codeword operand that passes its checks has length `n`; it is row 0, or there is no row and `n = 0`. -/
theorem codewordOperand_ok {e : Engine} {rows : List Vec} {v : Vec} (h : codewordOperand e rows = .ok v) :
    v.length = e.n ∧ (rows = [v] ∨ rows = [] ∧ v = []) := by
  unfold codewordOperand formatCodeword requireLength at h
  rcases rows with _ | ⟨row, _ | ⟨row', rest⟩⟩
  · simp only at h
    split at h
    · cases h
    · next hl =>
      injection h with h
      subst h
      exact ⟨by simpa using hl, .inr ⟨rfl, rfl⟩⟩
  · simp only at h
    split at h
    · cases h
    · next hl =>
      injection h with h
      subst h
      exact ⟨by simpa using hl, .inl rfl⟩
  · cases h

/-- The two errors of a codeword operand. -/
theorem codewordOperand_error {e : Engine} {rows : List Vec} {kind : ErrorKind}
    (h : codewordOperand e rows = .error kind) : kind = .multiRowInput ∨ kind = .invalidCodewordLength := by
  unfold codewordOperand formatCodeword requireLength at h
  rcases rows with _ | ⟨row, _ | ⟨row', rest⟩⟩
  · simp only at h
    split at h
    · injection h with h; exact .inr h.symm
    · cases h
  · simp only at h
    split at h
    · injection h with h; exact .inr h.symm
    · cases h
  · injection h with h; exact .inl h.symm

/-- A row of length `n` passes. -/
theorem codewordOperand_row {e : Engine} {v : Vec} (h : v.length = e.n) : codewordOperand e [v] = .ok v := by
  simp [codewordOperand, formatCodeword, requireLength, h]

@[simp] theorem length_syndrome (m : Nat) (v : Vec) : (syndrome (tables m) v).length = m := by simp [syndrome]

/-- A column found is one of the `n` columns and equals the vector searched for. -/
theorem findColumn_some {e : Engine} {v : Vec} {j : Nat} (h : findColumn e v = some j) :
    j < e.n ∧ col e.P j = v := by
  unfold findColumn at h
  exact ⟨by simpa using List.mem_of_find?_eq_some h, by simpa using List.find?_some h⟩

/-- What the correction stage can give. -/
theorem correction_cases (e : Engine) (v : Vec) :
    (syndrome e v = zeros e.m ∧ correction e v = .ok { vec := v, corr := .valid, index := 0 }) ∨
    (syndrome e v ≠ zeros e.m ∧ ∃ j, findColumn e (syndrome e v) = some j ∧
      correction e v = .ok { vec := flip v j, corr := .corrected, index := j }) ∨
    (syndrome e v ≠ zeros e.m ∧ findColumn e (syndrome e v) = none ∧
      correction e v = .error .uncorrectableError) := by
  unfold correction zeroSyndrome
  by_cases h : syndrome e v = zeros e.m
  · exact .inl ⟨h, by simp [h]⟩
  · cases hf : findColumn e (syndrome e v) with
    | none => exact .inr (.inr ⟨h, rfl, by simp [h]⟩)
    | some j => exact .inr (.inl ⟨h, j, rfl, by simp [h]⟩)

/-- A position in `0..n` and the index it flips, or one of the two position errors. -/
theorem flipIndex_cases (e : Engine) (pos : Int) :
    (pos > e.n ∧ flipIndex e pos = .error .positionOutOfRange) ∨
    (pos ≤ e.n ∧ pos < 0 ∧ flipIndex e pos = .error .negativePosition) ∨
    (0 ≤ pos ∧ pos ≤ e.n ∧ flipIndex e pos = .ok (pos.toNat - 1)) := by
  unfold flipIndex
  by_cases h1 : pos > e.n
  · exact .inl ⟨h1, by simp [h1]⟩
  · by_cases h2 : pos < 0
    · exact .inr (.inl ⟨by omega, h2, by simp [h1, h2]⟩)
    · refine .inr (.inr ⟨by omega, by omega, ?_⟩)
      simp only [h1, h2, if_false]
      congr 1
      split <;> omega

/-- The next request of a state that has one. -/
theorem takeRequest_cons {s : State} {a : Accepted} {rest : List Accepted} (h : s.pending = a :: rest) :
    takeRequest s = some (a, { s with pending := rest }) := by
  simp [takeRequest, h]

/-- Everything a step can do: nothing is waiting; a request without a meaning gets a free value; an instruction
runs; a reserved descriptor is answered. -/
theorem step_cases (s : State) :
    (s.pending = [] ∧ step s = .next s) ∨
    (∃ rest, s.pending = .meaningless :: rest ∧ step s = .next (answerMeaningless { s with pending := rest })) ∨
    (∃ r rest i, s.pending = .request r :: rest ∧ decode r = .ok i ∧ step s = exec i { s with pending := rest }) ∨
    (∃ r rest e, s.pending = .request r :: rest ∧ decode r = .error e ∧
      step s = .next (answerReserved { s with pending := rest })) := by
  cases hp : s.pending with
  | nil => exact .inl ⟨rfl, by simp [step, takeRequest, hp]⟩
  | cons a rest =>
    cases a with
    | meaningless => exact .inr (.inl ⟨rest, rfl, by simp [step, takeRequest_cons hp]⟩)
    | request r =>
      cases hd : decode r with
      | ok i => exact .inr (.inr (.inl ⟨r, rest, i, rfl, hd, by simp [step, takeRequest_cons hp, hd]⟩))
      | error e => exact .inr (.inr (.inr ⟨r, rest, e, rfl, hd, by simp [step, takeRequest_cons hp, hd]⟩))

/-- The result of an instruction on an engine value. -/
def resultOf (e : Engine) : Instr → Except ErrorKind Response
  | .encode word => encodeResult e word
  | .check rows => checkResult e rows
  | .correct rows => correctResult e rows
  | .decode rows => decodeResult e rows
  | .bitflip rows pos => bitflipResult e rows pos

/-- Every instruction answers its result and does nothing else. -/
theorem exec_eq_answer (i : Instr) (s : State) : exec i s = .next (s.answer (responseOf (resultOf s.engine i))) := by
  cases i <;> rfl

/-- The offer at an edge: none; it stands; a transfer without a meaning; a transfer; a refusal. -/
theorem takeOffer_cases (p : PortParams) (inp : PortIn) (s : State) :
    (inp.reqValid = false ∧ takeOffer p inp s = .next { s with standing := none }) ∨
    (inp.reqValid = true ∧ s.reqReady = false ∧
      takeOffer p inp s = .next { s with standing := some (assemble p inp.req) }) ∨
    (inp.reqValid = true ∧ s.reqReady = true ∧ s.handshakeBroken = true ∧
      takeOffer p inp s = .next (s.accept .meaningless)) ∨
    (inp.reqValid = true ∧ s.reqReady = true ∧ s.handshakeBroken = false ∧ presentable p inp.req = true ∧
      takeOffer p inp s = .next (s.accept (.request (assemble p inp.req)))) ∨
    (inp.reqValid = true ∧ s.reqReady = true ∧ s.handshakeBroken = false ∧ presentable p inp.req = false ∧
      takeOffer p inp s = .refused .unpresentable) := by
  unfold takeOffer
  cases hv : inp.reqValid <;> cases hr : s.reqReady <;> cases hb : s.handshakeBroken <;>
    cases hp : presentable p inp.req <;> simp

/-- The block's own work at an edge: no service, or one step. -/
theorem serveEdge_cases (ch : PortChoice) (s : State) :
    (ch.serve = false ∧ serveEdge ch s = .next { s with reqReady := ch.ready }) ∨
    (ch.serve = true ∧ ∃ t, step s = .next t ∧ serveEdge ch s = .next { t with reqReady := ch.ready }) := by
  unfold serveEdge
  cases ch.serve with
  | false => exact .inl ⟨rfl, rfl⟩
  | true =>
    refine .inr ⟨rfl, ?_⟩
    rcases step_cases s with ⟨_, h⟩ | ⟨_, _, h⟩ | ⟨r, rest, i, _, _, h⟩ | ⟨r, rest, e, _, _, h⟩
    · exact ⟨_, h, by simp [h]⟩
    · exact ⟨_, h, by simp [h]⟩
    · rw [exec_eq_answer] at h
      exact ⟨_, h, by simp [h]⟩
    · exact ⟨_, h, by simp [h]⟩

/-- An edge that gives a next state: reset, or the request side and then the block's own work. -/
theorem edge_next {p : PortParams} {ch : PortChoice} {inp : PortIn} {s t : State} (h : edge p ch inp s = .next t) :
    (inp.rst = true ∧ t = applyReset s) ∨
    (inp.rst = false ∧ ∃ s', acceptOffer p inp (takeResponse inp s) = .next s' ∧ serveEdge ch s' = .next t) := by
  unfold edge at h
  cases hr : inp.rst with
  | true => rw [hr] at h; injection h with h; exact .inl ⟨rfl, h.symm⟩
  | false =>
    rw [hr] at h
    cases ha : acceptOffer p inp (takeResponse inp s) with
    | next s' => rw [ha] at h; exact .inr ⟨rfl, s', rfl, h⟩
    | fault f => exact nomatch f
    | refused r => rw [ha] at h; exact nomatch h

end Sys2Proof.Machine
end

