-- ==== Sys2Proof/Laws/PerInstr.lean ====
section
/-! SUPPORT. The per-instruction family RoundTrip: each instruction's request decodes to it. -/

namespace Sys2Proof.Laws.RoundTrip

/-- The request the encoder gives for `i` decodes to `i`, under the descriptor the table gives it. -/
def Statement (i : Instr) : Prop := Sys2Proof.decode (Sys2Proof.encode i) = .ok i ∧ (Sys2Proof.encode i).desc = descriptor i

theorem encode (word : List Char8) : Statement (.encode word) := by
  simp [Statement, Sys2Proof.decode, Sys2Proof.encode, descriptor, rsvField, opField]

theorem check (rows : List Vec) : Statement (.check rows) := by
  simp [Statement, Sys2Proof.decode, Sys2Proof.encode, descriptor, rsvField, opField]

theorem correct (rows : List Vec) : Statement (.correct rows) := by
  simp [Statement, Sys2Proof.decode, Sys2Proof.encode, descriptor, rsvField, opField]

theorem decode (rows : List Vec) : Statement (.decode rows) := by
  simp [Statement, Sys2Proof.decode, Sys2Proof.encode, descriptor, rsvField, opField]

theorem bitflip (rows : List Vec) (pos : Int) : Statement (.bitflip rows pos) := by
  simp [Statement, Sys2Proof.decode, Sys2Proof.encode, descriptor, rsvField, opField]

end Sys2Proof.Laws.RoundTrip
end

