-- ==== Sys2Proof/Tests/Slice0.lean ====
section
/-! SUPPORT. The model's own tests. Expected values are those of spec/95_test_vectors.md and of the rules cited.
A theorem `witness_<Obligation>` shows states and operands that meet that obligation's hypotheses together. -/

namespace Sys2Proof.Tests

open Sys2Proof.Machine

/-- Bits from digits, element 0 first. -/
def bits (l : List Nat) : Vec := l.map (· == 1)

/-- A block with parameter `m`, after reset. -/
def block (m : Nat) : State := .afterReset (tables m)

/-- The last response an outcome's state holds. -/
def lastResponse : Host.Outcome State Fault Refusal → Option Response
  | .next s => s.responses.getLast?
  | _ => none

/-- What a block with parameter `m` answers to a request. -/
def ask (m : Nat) (r : Request) : Option Response := lastResponse (step { block m with pending := [.request r] })

/-- The word `"1011"` (spec/95_test_vectors.md section 1.1). -/
def word1011 : List Char8 := [0x31#8, 0x30#8, 0x31#8, 0x31#8]

/-- The codeword of `"1011"` for `M = 3`. -/
def code1011 : Vec := bits [1, 0, 1, 1, 0, 1, 0]

/-- A port for `M = 3` (spec/95_test_vectors.md section 3.7). -/
def port : PortParams := { lcap := 7, posW := 5 }

/-- Some response lanes. -/
def lanes : PortResponse := driveResponse {}

/-! ### WellFormed: each check refuses an ill-formed term -/

theorem test_wf_word_too_long : (Instr.encode (List.replicate 8 0x30#8)).wellFormed port = false := by decide
theorem test_wf_check_row_too_long : (Instr.check [zeros 8]).wellFormed port = false := by decide
theorem test_wf_correct_row_too_long : (Instr.correct [zeros 8]).wellFormed port = false := by decide
theorem test_wf_decode_row_too_long : (Instr.decode [zeros 8]).wellFormed port = false := by decide
theorem test_wf_bitflip_row_too_long : (Instr.bitflip [zeros 8] 1).wellFormed port = false := by decide
theorem test_wf_position_too_large : (Instr.bitflip [zeros 7] 16).wellFormed port = false := by decide
theorem test_wf_position_too_small : (Instr.bitflip [zeros 7] (-17)).wellFormed port = false := by decide
theorem test_wf_capacity_below_n : ({ lcap := 6, posW := 5 } : PortParams).legal 3 = false := by decide
theorem test_wf_position_width_below : ({ lcap := 7, posW := 4 } : PortParams).legal 3 = false := by decide
theorem test_wf_parameter_zero : port.legal 0 = false := by decide
theorem test_wf_accepts : port.legal 3 = true ∧ (Instr.bitflip [code1011] (-1)).wellFormed port = true := by decide

/-! ### Decode: words written out from spec/30_encoding.md R72 and R73 -/

theorem test_decode_encode (w : List Char8) : decode { desc := 0b00000001#8, word := w } = .ok (.encode w) := by
  simp [decode, rsvField, opField]
theorem test_decode_check (v : List Vec) : decode { desc := 0b00000010#8, rows := v } = .ok (.check v) := by
  simp [decode, rsvField, opField]
theorem test_decode_correct (v : List Vec) : decode { desc := 0b00000011#8, rows := v } = .ok (.correct v) := by
  simp [decode, rsvField, opField]
theorem test_decode_decode (v : List Vec) : decode { desc := 0b00000100#8, rows := v } = .ok (.decode v) := by
  simp [decode, rsvField, opField]
theorem test_decode_bitflip (v : List Vec) (x : Int) :
    decode { desc := 0b00000101#8, rows := v, pos := x } = .ok (.bitflip v x) := by
  simp [decode, rsvField, opField]
theorem test_decode_table_words : decodeTableWord 8 0x01 = some (.encode []) ∧
    decodeTableWord 8 0x02 = some (.check []) ∧ decodeTableWord 8 0x03 = some (.correct []) ∧
    decodeTableWord 8 0x04 = some (.decode []) ∧ decodeTableWord 8 0x05 = some (.bitflip [] 0) ∧
    decodeTableWord 8 0x06 = none ∧ decodeTableWord 8 0x09 = none := by decide
theorem test_decode_reserved : ∀ d : Desc, (decode { desc := d }).toOption.isSome = true →
    d = 1#8 ∨ d = 2#8 ∨ d = 3#8 ∨ d = 4#8 ∨ d = 5#8 := by decide
theorem test_fetch_word_runs : step (State.reset.withFetchWord 8 0x02) = exec (.check []) State.reset := rfl

/-! ### Construct (spec/95_test_vectors.md section 2) -/

theorem test_tables_m3 : (tables 3).R = [[0, 1, 3], [0, 2, 3], [1, 2, 3]] ∧
    (tables 3).A = [bits [1, 1, 0, 1], bits [1, 0, 1, 1], bits [0, 1, 1, 1]] := by decide
theorem test_matrix_ports_m3 : gMatrixPort (tables 3) = 0xF192931 ∧ pMatrixPort (tables 3) = 0x13969B := by decide
theorem test_matrix_ports_m2 : gMatrixPort (tables 2) = 0x7 ∧ pMatrixPort (tables 2) = 0x2B := by decide
theorem test_check_rows_m4 : (tables 4).P.map packBits =
    [bits [1,1,0,1,1,0,1,0,1,0,1,1,0,0,0], bits [1,0,1,1,0,1,1,0,0,1,1,0,1,0,0],
     bits [0,1,1,1,0,0,0,1,1,1,1,0,0,1,0], bits [0,0,0,0,1,1,1,1,1,1,1,0,0,0,1]].map packBits := by decide
theorem test_construct_refuses : (construct 0).toOption = none ∧ (construct (-1)).toOption = none := by decide

/-! ### The five requests (spec/95_test_vectors.md section 3) -/

theorem test_encode_1011 : ask 3 { desc := 1#8, word := word1011, rows := [[false], [true]], pos := -5 } =
    some { vec := code1011 } := by decide
theorem test_encode_length_before_alphabet :
    ask 3 { desc := 1#8, word := [0x31#8, 0x30#8, 0x61#8] } = some { status := .error .invalidWordLength } ∧
    ask 3 { desc := 1#8, word := [0x31#8, 0x30#8, 0x61#8, 0x31#8] } =
      some { status := .error .invalidWordAlphabet } := by decide
theorem test_check_flags : ask 3 { desc := 2#8, rows := [code1011] } = some { flag := true } ∧
    ask 3 { desc := 2#8, rows := [bits [1, 0, 1, 0, 0, 1, 0]] } = some { flag := false } := by decide
theorem test_check_row_count_first : ask 3 { desc := 2#8, rows := [[true], []] } =
    some { status := .error .multiRowInput } ∧
    ask 3 { desc := 2#8, rows := [] } = some { status := .error .invalidCodewordLength } := by decide
theorem test_correct_flip : ask 3 { desc := 3#8, rows := [bits [1, 0, 1, 0, 0, 1, 0]] } =
    some { vec := code1011, corr := .corrected, index := 3 } := by decide
theorem test_correct_double_error : ask 3 { desc := 3#8, rows := [bits [1, 0, 1, 1, 1, 0, 0]] } =
    some { vec := bits [0, 0, 1, 1, 1, 0, 0], corr := .corrected, index := 0 } := by decide
theorem test_decode_m4 : ask 4 { desc := 4#8, rows := [bits [1, 0, 1, 1, 0, 0, 1, 1, 1, 0, 1, 0, 0, 0, 1]] } =
    some { vec := bits [1, 0, 1, 1, 0, 0, 1, 1, 1, 0, 0], corr := .corrected, index := 10 } := by decide
theorem test_decode_m1 : ask 1 { desc := 4#8, rows := [[true]] } = some { corr := .corrected } := by decide
theorem test_bitflip_ends : ask 3 { desc := 5#8, rows := [code1011], pos := 7 } =
      some { vec := bits [1, 0, 1, 1, 0, 1, 1] } ∧
    ask 3 { desc := 5#8, rows := [code1011], pos := 8 } = some { status := .error .positionOutOfRange } := by decide
theorem test_bitflip_zero_and_negative : ask 3 { desc := 5#8, rows := [code1011], pos := 0 } =
      some { vec := bits [0, 0, 1, 1, 0, 1, 0], diag := true } ∧
    ask 3 { desc := 5#8, rows := [bits [1, 0, 1]], pos := 8 } = some { status := .error .invalidCodewordLength } ∧
    ask 3 { desc := 5#8, rows := [code1011], pos := -1 } = some { status := .error .negativePosition } := by decide
theorem test_reserved : ask 3 { desc := 0x81#8, word := word1011 } = some { status := .error .illegalOperation } := by
  decide

/-! ### The port (spec/95_test_vectors.md section 3.7) and the assembler (spec/30_encoding.md R84) -/

theorem test_port_encode_lanes : (driveRequest port (encode (.encode word1011))).word = 0x31313031 ∧
    driveResponse { vec := code1011 } =
      { status := 0#4, flag := false, corr := 0#2, index := 0, diag := false, len := 7, vec := 0x2D } := by decide
theorem test_port_bitflip_lanes : driveRequest port (encode (.bitflip [code1011] (-1))) =
    { desc := 5#8, rows := 1#2, cwLen := 7, cw := 0x2D, pos := 0b11111 } ∧
    (assemble port { desc := 5#8, rows := 1#2, cwLen := 7, cw := 0x2D, pos := 0b11111 }).pos = -1 := by decide
theorem test_asm_quoted : Asm.parse "ENCODE \" 011\"".toList = some (encode (.encode [0x20#8, 0x30#8, 0x31#8, 0x31#8])) := by
  decide
theorem test_asm_codes : Asm.parse "encode 0x31,0x30,0x41".toList =
    some (encode (.encode [0x31#8, 0x30#8, 0x41#8])) := by decide
theorem test_asm_bitflip_rows : Asm.parse "BITFLIP [[1 0],[]], -12".toList =
    some (encode (.bitflip [bits [1, 0], []] (-12))) := by decide
theorem test_asm_rows0 : Asm.parse "DECODE ROWS0".toList = some (encode (.decode [])) := by decide
theorem test_asm_raw : Asm.parse ".desc 0x41 \"1011\"".toList = some { desc := 0x41#8, word := word1011 } ∧
    Asm.parse ".desc 0xFF".toList = some { desc := 0xFF#8 } := by decide

/-! ### Witnesses: the hypotheses of each obligation can be met together -/

/-- A request waiting on a block with parameter 3. -/
def waiting (r : Request) : State := { block 3 with pending := [.request r] }

/-- An edge's inputs with a request offered and no reset. -/
def offering (pr : PortRequest) : PortIn := { rst := false, reqValid := true, req := pr, rspReady := false }

/-- A host that offers nothing, under reset. -/
def resetting : PortIn := { rst := true, reqValid := false, req := { desc := 0 }, rspReady := false }

/-- Nothing is served, `req_ready` rises. -/
def idleChoice : PortChoice := { ready := true, serve := false, idle := lanes }

theorem witness_InvalidParameterOnlyAtElaboration : ((0 : Int) < 1 ∧ (1 : Int) ≤ 1) ∧
    (waiting { desc := 1#8 }).pending = [.request { desc := 1#8 }] ∧
    step (waiting { desc := 1#8 }) = .next ((block 3).answer (errorResponse .invalidWordLength)) ∧
    resetting.rst = true ∧ edge port idleChoice resetting (block 3) = .next (block 3) :=
  ⟨by decide, rfl, rfl, rfl, rfl⟩

theorem witness_ElaboratedBlockAfterReset : (1 : Int) ≤ 1 ∧ (1 : Int) ≤ 3 := by decide

theorem witness_ParityPositionsArePowersOfTwo : 1 ≤ 1 ∧ 1 ≤ 3 := by decide

theorem witness_DataPositionsIncreaseAndNumberK : 1 ≤ 1 ∧ 1 ≤ 3 := by decide

theorem witness_ParityPositionsInOrder : 1 ≤ 1 ∧ 1 ≤ 3 := by decide

theorem witness_ParityMatrixEntries : 1 ≤ 3 ∧ 2 < 3 ∧ 3 < dataLength 3 ∧ 1 ∈ (tables 3).R.getD 2 [] := by decide

theorem witness_GeneratorMatrixIsSystematic : 1 ≤ 3 ∧ 3 < dataLength 3 ∧ 2 < 3 ∧ 1 ≤ 1 ∧ dataLength 1 = 0 := by decide

theorem witness_CheckMatrixIsSystematic : 1 ≤ 3 ∧ 2 < 3 ∧ 3 < dataLength 3 := by decide

theorem witness_GeneratorOrthogonalToCheck : 1 ≤ 3 ∧ 3 < dataLength 3 ∧ 2 < 3 := by decide

theorem witness_CheckColumnIsPhysicalPosition : 1 ≤ 3 ∧ 6 < codeLength 3 ∧ 2 < 3 ∧ 3 < dataLength 3 := by decide

theorem witness_CheckColumnsAreAllNonzeroVectors : 1 ≤ 3 ∧ 6 < codeLength 3 ∧ col (tables 3).P 6 = col (tables 3).P 6 ∧
    (bits [0, 0, 1]).length = 3 ∧ bits [0, 0, 1] ≠ zeros 3 := by decide

theorem witness_SystematicIndexInvertsPosition : 1 ≤ 3 ∧ 2 < 3 ∧ 6 < codeLength 3 ∧ 1 ≤ 7 ∧ 7 ≤ codeLength 3 := by decide

theorem witness_SystematicIndexInvertsPosition_not_power : ¬ ∃ i, 3 = 2 ^ i := by
  rintro ⟨i, h⟩
  have hi : i < 2 := by
    by_contra hc
    have := Nat.pow_le_pow_right (n := 2) (by decide) (Nat.le_of_not_lt hc)
    omega
  interval_cases i <;> omega

theorem witness_MatrixPortsAreConstantRowMajor : 1 ≤ 3 ∧ (block 3).engine = tables 3 ∧ 3 < dataLength 3 ∧
    6 < codeLength 3 ∧ step (block 3) = .next (block 3) ∧ edge port idleChoice resetting (block 3) = .next (block 3) :=
  ⟨by decide, rfl, by decide, by decide, rfl, rfl⟩

theorem witness_DecodeInvertsEncode : decode { desc := 0x05#8, pos := 1 } = .ok (.bitflip [] 1) := by decide

theorem witness_StepRunsTheDecodedInstruction : (waiting { desc := 1#8 }).pending = [.request { desc := 1#8 }] ∧
    decode { desc := 1#8 } = .ok (.encode []) ∧ LegalDescriptor 1#8 ∧ LegalDescriptor 5#8 := by
  refine ⟨rfl, by decide, ?_, ?_⟩ <;> simp [LegalDescriptor]

theorem witness_ReservedDescriptorIsIllegalOperation : (waiting { desc := 6#8 }).pending = [.request { desc := 6#8 }] ∧
    ¬ LegalDescriptor 0#8 ∧ ¬ LegalDescriptor 6#8 ∧ ¬ LegalDescriptor 9#8 := by
  refine ⟨rfl, ?_, ?_, ?_⟩ <;> simp [LegalDescriptor]

theorem witness_QuiescentStepChangesNothing : (block 3).pending = [] := rfl

theorem witness_UnusedOperandsAreIgnored :
    let r : Request := { desc := 5#8, rows := [code1011], pos := 1 }
    let r' : Request := { desc := 5#8, rows := [code1011], pos := 1, word := word1011 }
    r.desc = r'.desc ∧ (r.desc = 0x01#8 → r.word = r'.word) ∧
    (r.desc = 0x02#8 ∨ r.desc = 0x03#8 ∨ r.desc = 0x04#8 → r.rows = r'.rows) ∧
    (r.desc = 0x05#8 → r.rows = r'.rows ∧ r.pos = r'.pos) := by decide

theorem witness_EncodeAnswersDataThenParity : 1 ≤ 3 ∧ (block 3).engine = tables 3 ∧ AcceptedWord 3 word1011 :=
  ⟨by decide, rfl, by decide, by decide⟩

theorem witness_EncodeRefusesBadWords : 1 ≤ 3 ∧ (block 3).engine = tables 3 ∧ ([] : List Char8).length ≠ dataLength 3 ∧
    (List.replicate 5 0x30#8).length ≠ dataLength 3 ∧ [0x31#8, 0x30#8, 0x61#8, 0x31#8].length = dataLength 3 ∧
    ∃ c ∈ [0x31#8, 0x30#8, 0x61#8, 0x31#8], c ≠ 0x30#8 ∧ c ≠ 0x31#8 := by decide

theorem witness_EncodedWordChecksValid : 1 ≤ 1 ∧ (block 1).engine = tables 1 ∧ AcceptedWord 1 [] :=
  ⟨by decide, rfl, by decide, by decide⟩

theorem witness_EncodingIsLinearAndInjective : 1 ≤ 3 ∧ (zeros 4).length = dataLength 3 ∧
    codewordOf 3 (zeros 4) = codewordOf 3 (zeros 4) := ⟨by decide, by decide, rfl⟩

theorem witness_AllOnesWordEncodesToAllOnes : 2 ≤ 2 ∧ (block 2).engine = tables 2 ∧ 1 < 2 := by decide

theorem witness_SyndromeComparesParities : 1 ≤ 3 ∧ code1011.length = codeLength 3 ∧ 2 < 3 := by decide

theorem witness_CheckAnswersParityAgreement : 1 ≤ 3 ∧ (block 3).engine = tables 3 ∧ code1011.length = codeLength 3 ∧
    (∀ i, i < 3 → code1011.getD (dataLength 3 + i) false = parityOf 3 code1011 i) ∧
    (flip code1011 6).length = codeLength 3 ∧
    (2 < 3 ∧ (flip code1011 6).getD (dataLength 3 + 2) false ≠ parityOf 3 (flip code1011 6) 2) := by decide

theorem witness_CheckAcceptsExactlyTheCode : 1 ≤ 3 ∧ (block 3).engine = tables 3 ∧ code1011.length = codeLength 3 := by
  decide

theorem witness_ColumnSearchFindsTheSystematicIndex : 1 ≤ 3 ∧ (bits [1, 1, 1]).length = 3 ∧ bits [1, 1, 1] ≠ zeros 3 ∧
    (zeros 3).length = 3 := by decide

theorem witness_CorrectAnswersTheFlippedElement : 1 ≤ 3 ∧ (block 3).engine = tables 3 ∧ code1011.length = codeLength 3 ∧
    syndrome (tables 3) code1011 = zeros 3 ∧ (flip code1011 6).length = codeLength 3 ∧
    syndrome (tables 3) (flip code1011 6) ≠ zeros 3 := by decide

theorem witness_DecodeAnswersTheFirstKBits : 1 ≤ 1 ∧ (block 1).engine = tables 1 ∧ [false].length = codeLength 1 ∧
    syndrome (tables 1) [false] = zeros 1 ∧ [true].length = codeLength 1 ∧ syndrome (tables 1) [true] ≠ zeros 1 := by decide

theorem witness_UncorrectableErrorIsUnreachable : 1 ≤ 3 ∧ (flip code1011 0).length = codeLength 3 ∧
    syndrome (tables 3) (flip code1011 0) ≠ zeros 3 ∧ (waiting { desc := 3#8 }).engine = tables 3 ∧
    (waiting { desc := 3#8 }).pending = [.request { desc := 3#8 }] ∧
    step (waiting { desc := 3#8 }) = .next ((block 3).answer (errorResponse .invalidCodewordLength)) :=
  ⟨by decide, by decide, by decide, rfl, rfl, rfl⟩

theorem witness_SingleErrorIsCorrected : 1 ≤ 3 ∧ (block 3).engine = tables 3 ∧ IsCodeword 3 code1011 ∧
    0 < codeLength 3 ∧ 6 < codeLength 3 := ⟨by decide, rfl, ⟨by decide, by decide⟩, by decide, by decide⟩

theorem witness_DoubleErrorIsMiscorrected : 1 ≤ 3 ∧ (block 3).engine = tables 3 ∧ IsCodeword 3 code1011 ∧
    0 < codeLength 3 ∧ 6 < codeLength 3 ∧ 0 ≠ 6 :=
  ⟨by decide, rfl, ⟨by decide, by decide⟩, by decide, by decide, by decide⟩

theorem witness_CorrectionYieldsCodewords : 1 ≤ 3 ∧ (block 3).engine = tables 3 ∧
    (bits [1, 0, 1, 1, 1, 0, 0]).length = codeLength 3 := by decide

theorem witness_CodewordOperandErrors : 1 ≤ 3 ∧ (block 3).engine = tables 3 ∧
    (Instr.bitflip [[], []] (-1) = .check [[], []] ∨ Instr.bitflip [[], []] (-1) = .correct [[], []] ∨
      Instr.bitflip [[], []] (-1) = .decode [[], []] ∨ Instr.bitflip [[], []] (-1) = .bitflip [[], []] (-1)) ∧
    2 ≤ ([[], []] : List Vec).length ∧ (zeros 6).length ≠ codeLength 3 ∧ (zeros 8).length ≠ codeLength 3 := by decide

theorem witness_BitflipFlipsOneElement : 1 ≤ 3 ∧ (block 3).engine = tables 3 ∧ code1011.length = codeLength 3 ∧
    (0 : Int) ≤ 0 ∧ (0 : Int) ≤ codeLength 3 ∧ (0 : Int) ≤ 7 ∧ (7 : Int) ≤ codeLength 3 := by decide

theorem witness_BitflipPositionErrors : 1 ≤ 3 ∧ (block 3).engine = tables 3 ∧ code1011.length = codeLength 3 ∧
    (8 : Int) > codeLength 3 ∧ (-1 : Int) < 0 := by decide

theorem witness_PositionZeroIsPositionOneWithDiagnostic : 1 ≤ 1 ∧ (block 1).engine = tables 1 ∧
    [false].length = codeLength 1 := by decide

theorem witness_ErrorResponseHasNoPartialEffect :
    (waiting { desc := 3#8 }).pending = [.request { desc := 3#8 }] ∧
    step (waiting { desc := 3#8 }) = .next ((block 3).answer (errorResponse .invalidCodewordLength)) ∧
    (errorResponse .invalidCodewordLength).status = .error .invalidCodewordLength := ⟨rfl, rfl, rfl⟩

theorem witness_EveryRequestIsAnsweredOnce : (waiting { desc := 6#8 }).pending = .request { desc := 6#8 } :: [] := rfl

theorem witness_EngineValueIsNeverWritten : State.elaborate 3 = .ok State.reset ∧
    exec (.check []) (block 3) = .next ((block 3).answer (errorResponse .invalidCodewordLength)) ∧
    step (block 3) = .next (block 3) ∧ edge port idleChoice resetting (block 3) = .next (block 3) :=
  ⟨rfl, rfl, rfl, rfl⟩

theorem witness_ResponseIsAFunctionOfEngineAndRequest :
    (waiting { desc := 1#8 }).pending = .request { desc := 1#8 } :: [] := rfl

theorem witness_ResponsesComeInAcceptanceOrder :
    (waiting { desc := 1#8 }).pending = [{ desc := 1#8 }].map .request ++ [] := rfl

theorem witness_inv_reset : State.reset.Inv :=
  { constructed := ⟨3, by decide, rfl⟩
    meaningful := fun a h => by cases h
    handshake := rfl
    allowed := fun r h => by cases h }

theorem witness_InvariantHoldsAtElaboration : State.elaborate 3 = .ok State.reset := rfl

theorem witness_StepKeepsInvariant : (waiting { desc := 6#8 }).Inv ∧
    step (waiting { desc := 6#8 }) = .next ((block 3).answer (errorResponse .illegalOperation)) := by
  refine ⟨⟨⟨3, by decide, rfl⟩, fun a h => ?_, rfl, fun r h => by cases h⟩, rfl⟩
  simp [waiting] at h
  simp [h]

theorem witness_EdgeKeepsInvariant : State.reset.Inv ∧ (offering { desc := 1#8 }).rst = false ∧
    (∀ offer, State.reset.standing = some offer →
      (offering { desc := 1#8 }).reqValid = true ∧ assemble port (offering { desc := 1#8 }).req = offer) ∧
    edge port idleChoice (offering { desc := 1#8 }) State.reset =
      .next { State.reset with standing := some { desc := 1#8 }, reqReady := true } :=
  ⟨witness_inv_reset, rfl, fun _ h => (by cases h), rfl⟩

/-- Lanes of `CHECK [1011010]` with bits above the length set, and junk on the lanes CHECK does not name. -/
def junkLanes : PortRequest :=
  { desc := 2#8, rows := 1#2, cwLen := 7, cw := 0xF80 + packBits code1011, wordLen := 3, word := 0x123456, pos := 9 }

/-- The same request with those bits and lanes at 0. -/
def cleanLanes : PortRequest := { desc := 2#8, rows := 1#2, cwLen := 7, cw := packBits code1011 }

theorem test_port_ignores_bits_above_length :
    assemble port { cleanLanes with cw := junkLanes.cw } = assemble port cleanLanes ∧
    decode (assemble port junkLanes) = decode (assemble port cleanLanes) := by decide

/-- Three bytes, a row count of 3 and a negative position (R81, R83). -/
theorem test_port_assembles_lanes : assemble port { desc := 5#8, wordLen := 2, word := 0x123456, pos := 0b11110 } =
      { desc := 5#8, word := [0x56#8, 0x34#8], rows := [], pos := -2 } ∧
    ((assemble port { desc := 2#8, rows := 3#2, cwLen := 2, cw := 0b101 }).rows.length,
      (assemble port { desc := 2#8, rows := 3#2, cwLen := 2, cw := 0b101 }).rows.head?) =
      (2, some (bits [1, 0])) := by decide

theorem witness_PortRequestKeepsTheResponse : 1 ≤ port.posW ∧
    decode (encode (.bitflip [code1011] (-1))) = .ok (.bitflip [code1011] (-1)) ∧
    (Instr.bitflip [code1011] (-1)).wellFormed port = true ∧
    (Instr.encode (List.replicate 7 0x30#8)).wellFormed port = true ∧
    (Instr.check [zeros 9, []]).wellFormed port = true := by decide

theorem witness_PortRequestKeepsTheResponse_lanes : junkLanes.desc = cleanLanes.desc ∧
    (junkLanes.desc = 0x01#8 → junkLanes.wordLen = cleanLanes.wordLen ∧
      ∀ i, i < 8 * junkLanes.wordLen → bit junkLanes.word i = bit cleanLanes.word i) ∧
    (junkLanes.rows = cleanLanes.rows ∧ junkLanes.cwLen = cleanLanes.cwLen ∧
      ∀ i, i < junkLanes.cwLen → bit junkLanes.cw i = bit cleanLanes.cw i) ∧
    (junkLanes.desc = 0x05#8 → ∀ i, i < port.posW → bit junkLanes.pos i = bit cleanLanes.pos i) := by decide

theorem witness_PortRequestKeepsTheResponse_bits (a : PortRequest) (h : a = { cleanLanes with cw := junkLanes.cw }) :
    a.desc = cleanLanes.desc ∧ a.wordLen = cleanLanes.wordLen ∧ a.rows = cleanLanes.rows ∧
    a.cwLen = cleanLanes.cwLen ∧ (∀ i, i < 8 * a.wordLen → bit a.word i = bit cleanLanes.word i) ∧
    (∀ i, i < a.cwLen → bit a.cw i = bit cleanLanes.cw i) ∧
    (∀ i, i < port.posW → bit a.pos i = bit cleanLanes.pos i) := by subst h; decide

theorem witness_ResponseLanesCarryTheResponse : port.legal 3 = true ∧
    Response.Allowed (tables 3) { corr := .corrected, index := 6, vec := code1011 } := by
  refine ⟨by decide, rfl, by decide, .inl (by decide)⟩

theorem witness_PositionLaneIsTwosComplement : port.legal 3 = true ∧ posFits port (-16) = true ∧ posFits port 15 = true ∧
    (-1 : Int) ≤ -1 ∧ (8 : Int) ≤ codeLength 3 + 1 := by decide

theorem witness_ResetDropsUnansweredRequests : resetting.rst = true := rfl

/-- A block whose `req_ready` is high. -/
def readyBlock : State := { block 3 with reqReady := true }

theorem witness_OfferedRequestTransfers : (offering { desc := 1#8 }).rst = false ∧
    (offering { desc := 1#8 }).reqValid = true ∧ readyBlock.reqReady = true ∧ (offering { desc := 1#8 }).rspReady = false ∧
    idleChoice.serve = false ∧ readyBlock.handshakeBroken = false ∧
    (∀ offer, readyBlock.standing = some offer → assemble port (offering { desc := 1#8 }).req = offer) ∧
    presentable port (offering { desc := 1#8 }).req = true :=
  ⟨rfl, rfl, rfl, rfl, rfl, rfl, fun _ h => (by cases h), by decide⟩

theorem witness_OfferStandsUntilReady : (offering { desc := 1#8 }).rst = false ∧
    (offering { desc := 1#8 }).reqValid = true ∧ (block 3).reqReady = false ∧
    (offering { desc := 1#8 }).rspReady = false ∧ idleChoice.serve = false := ⟨rfl, rfl, rfl, rfl, rfl⟩

/-- A block whose host has an offer standing while `req_ready` is low, with a request waiting. -/
def unreadyBlock : State := { waiting { desc := 2#8 } with standing := some { desc := 2#8 } }

theorem witness_OfferStandsUntilReady_changed : unreadyBlock.reqReady = false ∧
    (∃ offer, unreadyBlock.standing = some offer ∧ offer ≠ assemble port (offering { desc := 1#8 }).req) ∧
    edge port idleChoice (offering { desc := 1#8 }) unreadyBlock =
      .next { block 3 with pending := [.meaningless], standing := some { desc := 1#8 }, reqReady := true,
                           handshakeBroken := true } :=
  ⟨rfl, ⟨_, rfl, by decide⟩, rfl⟩

/-- The oldest request is answered, `req_ready` rises. -/
def serveChoice : PortChoice := { ready := true, serve := true, idle := lanes }

/-- A host that takes a response and offers a CHECK of no row. -/
def taking : PortIn := { rst := false, reqValid := true, req := { desc := 2#8 }, rspReady := true }

/-- A ready block with a response to take and a reserved request waiting. -/
def busyBlock : State :=
  { waiting { desc := 6#8 } with responses := [{ flag := true }, {}], reqReady := true, standing := some { desc := 2#8 } }

theorem witness_ResponsesLeaveInOrder : taking.rst = false ∧ busyBlock.handshakeBroken = false ∧
    (∀ offer, busyBlock.standing = some offer → taking.reqValid = true ∧ assemble port taking.req = offer) ∧
    presentable port taking.req = true ∧ serveChoice.serve = true ∧
    [.request { desc := 6#8 }, .request { desc := 2#8 }] = busyBlock.pending ++ [.request (assemble port taking.req)] ∧
    edge port serveChoice taking busyBlock =
      .next { block 3 with pending := [.request { desc := 2#8 }], reqReady := true,
                           responses := [{}, { status := .error .illegalOperation }] } :=
  ⟨rfl, rfl, fun offer h => ⟨rfl, by injection h⟩, by decide, rfl, rfl, rfl⟩

theorem witness_OldestResponseIsOffered : ((block 3).answer {}).responses = {} :: [] := rfl

/-- A block whose host has an offer standing. -/
def standingBlock : State := { readyBlock with standing := some { desc := 2#8 } }

theorem witness_BrokenHandshakeGetsAFreeResponse : (offering { desc := 1#8 }).rst = false ∧ idleChoice.serve = false ∧
    (∃ offer, standingBlock.standing = some offer ∧
      ¬ ((offering { desc := 1#8 }).reqValid = true ∧ assemble port (offering { desc := 1#8 }).req = offer)) ∧
    ({ block 3 with pending := [.meaningless] } : State).pending = .meaningless :: [] :=
  ⟨rfl, rfl, ⟨_, rfl, by decide⟩, rfl⟩

/-- A host that withdraws its offer. -/
def withdrawing : PortIn := { rst := false, reqValid := false, req := { desc := 2#8 }, rspReady := false }

theorem witness_BrokenHandshakeGetsAFreeResponse_withdrawn :
    (∃ offer, standingBlock.standing = some offer ∧
      ¬ (withdrawing.reqValid = true ∧ assemble port withdrawing.req = offer)) ∧
    edge port idleChoice withdrawing standingBlock = .next { readyBlock with handshakeBroken := true } :=
  ⟨⟨_, rfl, by decide⟩, rfl⟩

theorem witness_BrokenHandshakeGetsAFreeResponse_later :
    edge port idleChoice (offering { desc := 1#8 }) { readyBlock with handshakeBroken := true } =
      .next { readyBlock with handshakeBroken := true, pending := [.meaningless] } := rfl

/-- Bits above an operand's length may change under a standing offer. -/
theorem test_port_holds_offer_with_junk_bits :
    breaksHandshake port (offering { cleanLanes with cw := junkLanes.cw })
      { block 3 with standing := some (assemble port cleanLanes) } = false := by decide

/-- A port with capacity 8: its length lanes can say up to 15. -/
def widePort : PortParams := { lcap := 8, posW := 5 }

theorem witness_OnlyUnpresentableRequestsAreRefused :
    edge widePort idleChoice (offering { desc := 1#8, wordLen := 9 }) readyBlock = .refused .unpresentable ∧
    edge widePort idleChoice (offering { desc := 2#8, rows := 1#2, cwLen := 9 }) readyBlock = .refused .unpresentable :=
  ⟨rfl, rfl⟩

theorem witness_AssemblerReadsOperandsInOrder : (∀ c ∈ ['1', '0', ' '], c ≠ '"' ∧ c.toNat < 256) ∧
    "eNcOdE".toList.map Char.toUpper = Asm.mnemonicText (.encode []) ∧
    "chEck".toList.map Char.toUpper = Asm.mnemonicText (.check []) ∧
    "Correct".toList.map Char.toUpper = Asm.mnemonicText (.correct []) ∧
    "decode".toList.map Char.toUpper = Asm.mnemonicText (.decode []) ∧
    "BITflip".toList.map Char.toUpper = Asm.mnemonicText (.bitflip [] 0) ∧
    ".dEsc".toList.map Char.toUpper = Asm.rawName :=
  ⟨by simp, rfl, rfl, rfl, rfl, rfl, rfl⟩

theorem witness_AssemblerReadsOperandsInOrder_codeword : Asm.IsCodewordText ['R', 'O', 'W', 'S', '0'] [] ∧
    Asm.IsCodewordText ['[', ' ', '1', ' ', '0', ']'] [bits [1, 0]] ∧
    Asm.IsCodewordText ['[', '[', '1', ' ', '0', ' ', ']', ']'] [bits [1, 0]] ∧
    Asm.IsCodewordText ['[', '[', ' ', '1', ']', ',', '[', ']', ']'] [bits [1], []] :=
  ⟨.inl ⟨rfl, rfl⟩,
   .inr ⟨[[' ', '1', ' ', '0']], by simp, by simp, rfl, .inr ⟨_, rfl, rfl⟩⟩,
   .inr ⟨[['1', ' ', '0', ' ']], by simp, by simp, rfl, .inl rfl⟩,
   .inr ⟨[[' ', '1'], []], by simp, by simp, rfl, .inl rfl⟩⟩

theorem test_asm_line_text :
    Asm.operandText (.bitflip [bits [1, 0], []] (-12)) = "[[10],[]], -12".toList ∧
    Asm.lineText "encode".toList (Asm.operandText (.encode [0x31#8, 0xAf#8])) = "encode 0x31,0xaf".toList ∧
    Asm.rawText ".desc".toList 0x0F#8 [] = ".desc 0x0f".toList ∧
    Asm.operandText (.decode []) = "ROWS0".toList := by decide

theorem test_asm_single_row_list_any_case : Asm.parse "dEcode [[ 1 0]]".toList = some (encode (.decode [bits [1, 0]])) := by
  decide

end Sys2Proof.Tests
end

section
/-! O43: the engine value is written by Construct alone (spec/10_state.md R22). One lemma per operation of the block
says that it keeps `engine`; the step and the edge are put together from those. -/

namespace Sys2Proof.Machine

/-- An elaborated block stores what Construct gives. -/
theorem construct_of_elaborate {M : Int} {s : State} (h : State.elaborate M = .ok s) : construct M = .ok s.engine := by
  unfold State.elaborate at h
  cases hc : construct M with
  | error kind => rw [hc] at h; cases h
  | ok e => rw [hc] at h; cases h; rfl

theorem exec_engine {i : Instr} {s t : State} (h : exec i s = .next t) : t.engine = s.engine := by
  rw [exec_eq_answer] at h
  cases h
  exact State.answer_engine ..

theorem step_engine {s t : State} (h : step s = .next t) : t.engine = s.engine := by
  rcases step_cases s with ⟨-, hs⟩ | ⟨rest, -, hs⟩ | ⟨r, rest, i, -, -, hs⟩ | ⟨r, rest, e, -, -, hs⟩ <;> rw [hs] at h
  · cases h; rfl
  · cases h; exact answerMeaningless_engine _
  · exact (exec_engine h :)
  · cases h; exact answerReserved_engine _

theorem takeOffer_engine {p : PortParams} {inp : PortIn} {s t : State} (h : takeOffer p inp s = .next t) :
    t.engine = s.engine := by
  rcases takeOffer_cases p inp s with
    ⟨-, ho⟩ | ⟨-, -, ho⟩ | ⟨-, -, -, ho⟩ | ⟨-, -, -, -, ho⟩ | ⟨-, -, -, -, ho⟩ <;> rw [ho] at h
  · cases h; rfl
  · cases h; rfl
  · cases h; exact State.accept_engine ..
  · cases h; exact State.accept_engine ..
  · cases h

theorem acceptOffer_engine {p : PortParams} {inp : PortIn} {s t : State} (h : acceptOffer p inp s = .next t) :
    t.engine = s.engine :=
  (takeOffer_engine h).trans (judgeHandshake_engine p inp s)

theorem serveEdge_engine {ch : PortChoice} {s t : State} (h : serveEdge ch s = .next t) : t.engine = s.engine := by
  rcases serveEdge_cases ch s with ⟨-, he⟩ | ⟨-, u, hu, he⟩ <;> rw [he] at h <;> cases h
  · rfl
  · exact (step_engine hu :)

theorem edge_engine {p : PortParams} {ch : PortChoice} {inp : PortIn} {s t : State} (h : edge p ch inp s = .next t) :
    t.engine = s.engine := by
  obtain ⟨-, rfl⟩ | ⟨-, s', ha, hs⟩ := edge_next h
  · exact applyReset_engine s
  · calc t.engine = s'.engine := serveEdge_engine hs
      _ = (takeResponse inp s).engine := acceptOffer_engine ha
      _ = s.engine := takeResponse_engine inp s

/-- Settles O43: Construct gives the elaborated engine value, and every instruction, step and edge keeps it. -/
theorem engineValueIsNeverWritten : Obligations.EngineValueIsNeverWritten :=
  ⟨fun _ _ => construct_of_elaborate, fun _ _ _ => exec_engine, fun _ _ => step_engine, fun _ _ _ _ _ => edge_engine⟩

end Sys2Proof.Machine
end

section
/-! O44: a response is a function of the engine value and the request (spec/20_memory.md R59). The function is written
out once, and one lemma says that the step gives its value and nothing else. -/

namespace Sys2Proof.Machine

/-- The response to a request: the result of the instruction it decodes to, or `IllegalOperation` for a reserved
descriptor (spec/30_encoding.md R73, spec/60_exceptions.md R207). -/
def responseTo (e : Engine) (r : Request) : Response :=
  match decode r with
  | .ok i => responseOf (resultOf e i)
  | .error _ => errorResponse .illegalOperation

theorem responseTo_of_decode_ok {r : Request} {i : Instr} (h : decode r = .ok i) (e : Engine) :
    responseTo e r = responseOf (resultOf e i) := by
  simp [responseTo, h]

theorem responseTo_of_decode_error {r : Request} {x : Reserved} (h : decode r = .error x) (e : Engine) :
    responseTo e r = errorResponse .illegalOperation := by
  simp [responseTo, h]

/-- A step with a request at the head answers it with `responseTo`, from the engine value alone. -/
theorem step_request {s : State} {r : Request} {rest : List Accepted} (h : s.pending = .request r :: rest) :
    step s = answers { s with pending := rest } (responseTo s.engine r) := by
  rcases step_cases s with ⟨hp, -⟩ | ⟨rest', hp, -⟩ | ⟨r', rest', i, hp, hd, hs⟩ | ⟨r', rest', x, hp, hd, hs⟩ <;>
    cases h.symm.trans hp
  · rw [hs, exec_eq_answer, responseTo_of_decode_ok hd]; rfl
  · rw [hs, responseTo_of_decode_error hd]; rfl

/-- Settles O44: the function is `responseTo`, the same in every state. -/
theorem responseIsAFunctionOfEngineAndRequest : Obligations.ResponseIsAFunctionOfEngineAndRequest :=
  ⟨responseTo, fun _ _ _ => step_request⟩

end Sys2Proof.Machine
end

section
/-! O52: the position lane is two's complement, and wide enough (spec/30_encoding.md R76). `sext` is the library's
balanced remainder `Int.bmod` by `2 ^ w`, so a lane gives back every position of the balanced range. -/

namespace Sys2Proof.Machine

/-- The sign bit of a `w + 1` bit field is set iff the field's value is at least `2 ^ w`. -/
theorem testBit_eq_two_pow_le_mod (f w : Nat) : f.testBit w = decide (2 ^ w ≤ f % 2 ^ (w + 1)) := by
  have hlow : f % 2 ^ w < 2 ^ w := Nat.mod_lt _ (Nat.two_pow_pos w)
  rw [Nat.testBit_eq_decide_div_mod_eq, Nat.mod_pow_succ, decide_eq_decide]
  rcases Nat.mod_two_eq_zero_or_one (f / 2 ^ w) with h | h <;> rw [h] <;> omega

/-- `sext` takes the remainder of least absolute value (spec/00_scope.md R11). -/
theorem sext_succ_eq_bmod (w f : Nat) : sext (w + 1) f = Int.bmod f (2 ^ (w + 1)) := by
  have hpow : 2 ^ (w + 1) = 2 * 2 ^ w := Nat.pow_succ'
  unfold sext
  rw [Int.bmod_def, ← Int.natCast_mod, bit_eq_testBit, Nat.add_sub_cancel, testBit_eq_two_pow_le_mod]
  by_cases h : 2 ^ w ≤ f % 2 ^ (w + 1)
  · rw [if_pos (by simp [h]), if_neg (by omega)]
  · rw [if_neg (by simp [h]), if_pos (by omega)]

theorem cast_twosComplement (w : Nat) (x : Int) : (twosComplement w x : Int) = x % (2 ^ w : Nat) :=
  Int.toNat_of_nonneg (Int.emod_nonneg x (by exact_mod_cast (Nat.two_pow_pos w).ne'))

theorem posFits_iff (p : PortParams) (pos : Int) :
    posFits p pos = true ↔ -(2 ^ (p.posW - 1) : Nat) ≤ pos ∧ pos < (2 ^ (p.posW - 1) : Nat) := by
  simp [posFits]

theorem portLegal_iff (p : PortParams) (m : Nat) :
    p.legal m = true ↔ 1 ≤ m ∧ codeLength m ≤ p.lcap ∧ m + 2 ≤ p.posW := by
  simp [PortParams.legal, and_assoc]

/-- A field of at least one bit gives back every position of its two's-complement range. -/
theorem sext_twosComplement {p : PortParams} {pos : Int} (hw : 1 ≤ p.posW) (h : posFits p pos = true) :
    sext p.posW (twosComplement p.posW pos) = pos := by
  obtain ⟨w, hp⟩ : ∃ w, p.posW = w + 1 := ⟨p.posW - 1, by omega⟩
  have hpow : 2 ^ (w + 1) = 2 * 2 ^ w := Nat.pow_succ'
  rw [posFits_iff, hp, Nat.add_sub_cancel] at h
  rw [hp, sext_succ_eq_bmod, cast_twosComplement, Int.emod_bmod]
  exact Int.bmod_eq_of_le (by omega) (by omega)

/-- A field of `m + 2` bits or more holds `-1` to `n + 1`, since `n + 1 = 2 ^ m`. -/
theorem posFits_of_add_two_le_posW {p : PortParams} {m : Nat} {pos : Int} (hw : m + 2 ≤ p.posW) (hlo : -1 ≤ pos)
    (hhi : pos ≤ codeLength m + 1) : posFits p pos = true := by
  have hn : codeLength m < 2 ^ m := codeLength_lt m
  have hm : 2 ^ m < 2 ^ (p.posW - 1) := Nat.pow_lt_pow_right (by omega) (by omega)
  exact (posFits_iff p pos).2 ⟨by omega, by omega⟩

/-- Settles O52: the lane round trip on the whole range, and the width bound of a legal port. -/
theorem positionLaneIsTwosComplement : Obligations.PositionLaneIsTwosComplement := by
  intro m p pos hlegal
  obtain ⟨-, -, hw⟩ := (portLegal_iff p m).1 hlegal
  exact ⟨sext_twosComplement (by omega), posFits_of_add_two_le_posW hw⟩

end Sys2Proof.Machine
end

section
/-! O20: an operand the operation does not name never matters (spec/30_encoding.md R77). The decoder keeps the named
operands alone, and a step sees its request through the decoder alone (`step_request`). -/

namespace Sys2Proof.Machine

/-- Requests with one descriptor that agree on the operands it names decode alike. -/
theorem decode_congr_of_named {r r' : Request} (hdesc : r.desc = r'.desc) (hword : r.desc = 0x01#8 → r.word = r'.word)
    (hrows : r.desc = 0x02#8 ∨ r.desc = 0x03#8 ∨ r.desc = 0x04#8 → r.rows = r'.rows)
    (hflip : r.desc = 0x05#8 → r.rows = r'.rows ∧ r.pos = r'.pos) : decode r = decode r' := by
  obtain ⟨desc, word, rows, pos⟩ := r
  obtain ⟨desc', word', rows', pos'⟩ := r'
  dsimp only at hdesc hword hrows hflip
  subst hdesc
  rcases decode_descriptor_cases desc with (rfl | rfl | rfl | rfl | rfl) | ⟨e, he⟩
  · rw [decode_0x01, decode_0x01, hword rfl]
  · rw [decode_0x02, decode_0x02, hrows (.inl rfl)]
  · rw [decode_0x03, decode_0x03, hrows (.inr (.inl rfl))]
  · rw [decode_0x04, decode_0x04, hrows (.inr (.inr rfl))]
  · obtain ⟨rfl, rfl⟩ := hflip rfl
    rw [decode_0x05, decode_0x05]
  · rw [he, he]

/-- Requests that decode alike get the same response. -/
theorem responseTo_congr {r r' : Request} (h : decode r = decode r') (e : Engine) :
    responseTo e r = responseTo e r' := by
  unfold responseTo
  rw [h]

/-- Settles O20: the two requests decode alike, so the step answers both alike. -/
theorem unusedOperandsAreIgnored : Obligations.UnusedOperandsAreIgnored := by
  intro s r r' rest hdesc hword hrows hflip
  have hdecode : decode r = decode r' := decode_congr_of_named hdesc hword hrows hflip
  rw [step_request rfl, step_request rfl, responseTo_congr hdecode]

end Sys2Proof.Machine
end

section
/-! O3, O4, O5: the classification of the positions (spec/40_generator_matrix.md R101 to R103). Both position lists are
filters of `1..n`, so each is determined by its members, and their lengths add up to `n`. -/

namespace Sys2Proof.Machine

theorem isParity_iff_and_eq_zero (p : Nat) : isParity p = true ↔ p &&& (p - 1) = 0 := by
  simp [isParity]

theorem isParity_iff {p : Nat} (hp : 1 ≤ p) : isParity p = true ↔ ∃ i, p = 2 ^ i :=
  (isParity_iff_and_eq_zero p).trans (Nat.and_sub_one_eq_zero_iff_isPowerOfTwo (by omega))

theorem isParity_eq_false_iff {p : Nat} (hp : 1 ≤ p) : isParity p = false ↔ ¬ ∃ i, p = 2 ^ i := by
  rw [← isParity_iff hp, Bool.not_eq_true]

@[simp] theorem isParity_two_pow (i : Nat) : isParity (2 ^ i) = true :=
  (isParity_iff (Nat.two_pow_pos i)).2 ⟨i, rfl⟩

theorem two_pow_le_codeLength_iff {m i : Nat} : 2 ^ i ≤ codeLength m ↔ i < m := by
  have hm : 0 < 2 ^ m := Nat.two_pow_pos m
  rw [← Nat.pow_lt_pow_iff_right Nat.one_lt_two]
  unfold codeLength
  omega

theorem mem_tables_parPos (m p : Nat) :
    p ∈ (tables m).parPos ↔ 1 ≤ p ∧ p ≤ codeLength m ∧ ∃ i, p = 2 ^ i := by
  rw [tables_parPos, mem_parityPositions, and_assoc]
  exact and_congr_right fun hp => and_congr_right fun _ => isParity_iff hp

theorem mem_tables_dataPos (m p : Nat) :
    p ∈ (tables m).dataPos ↔ 1 ≤ p ∧ p ≤ codeLength m ∧ ¬ ∃ i, p = 2 ^ i := by
  rw [tables_dataPos, mem_dataPositions, and_assoc]
  exact and_congr_right fun hp => and_congr_right fun _ => isParity_eq_false_iff hp

/-- Settles O3: the library's fact about `p &&& (p - 1)`, carried to the members of both lists. -/
theorem parityPositionsArePowersOfTwo : Obligations.ParityPositionsArePowersOfTwo :=
  ⟨fun p hp => ⟨isParity_iff hp, isParity_iff_and_eq_zero p⟩,
   fun m p _ => ⟨mem_tables_parPos m p, mem_tables_dataPos m p⟩⟩

theorem pairwise_lt_positions (n : Nat) : (positions n).Pairwise (· < ·) := List.pairwise_lt_range'

theorem pairwise_lt_dataPositions (n : Nat) : (dataPositions n).Pairwise (· < ·) :=
  (pairwise_lt_positions n).filter _

theorem pairwise_lt_parityPositions (n : Nat) : (parityPositions n).Pairwise (· < ·) :=
  (pairwise_lt_positions n).filter _

/-- Where `2 ^ 0` to `2 ^ (m - 1)` are the powers of two up to `n`, they are the parity positions in order. -/
theorem parityPositions_eq {n m : Nat} (h : ∀ i, 2 ^ i ≤ n ↔ i < m) :
    parityPositions n = (List.range m).map (2 ^ ·) := by
  have hpow : ((List.range m).map (2 ^ ·)).Pairwise (· < ·) :=
    List.pairwise_map.2 (List.pairwise_lt_range.imp (Nat.pow_lt_pow_right Nat.one_lt_two))
  refine (pairwise_lt_parityPositions n).eq_of_mem_iff hpow fun p => ?_
  rw [mem_parityPositions, List.mem_map]
  constructor
  · rintro ⟨⟨hlo, hhi⟩, hp⟩
    obtain ⟨i, rfl⟩ := (isParity_iff hlo).1 hp
    exact ⟨i, List.mem_range.2 ((h i).1 hhi), rfl⟩
  · rintro ⟨i, hi, rfl⟩
    exact ⟨⟨Nat.two_pow_pos i, (h i).2 (List.mem_range.1 hi)⟩, isParity_two_pow i⟩

theorem parityPositions_codeLength (m : Nat) : parityPositions (codeLength m) = (List.range m).map (2 ^ ·) :=
  parityPositions_eq fun _ => two_pow_le_codeLength_iff

/-- The data positions up to `n` are what the `m` powers of two up to `n` leave. -/
theorem length_dataPositions_add {n m : Nat} (h : ∀ i, 2 ^ i ≤ n ↔ i < m) : (dataPositions n).length + m = n := by
  calc (dataPositions n).length + m
      = (dataPositions n).length + (parityPositions n).length := by simp [parityPositions_eq h]
    _ = (positions n).length := by
        rw [Nat.add_comm]
        exact (List.length_eq_length_filter_add isParity).symm
    _ = n := by simp [positions]

@[simp] theorem length_dataPositions_codeLength (m : Nat) :
    (dataPositions (codeLength m)).length = dataLength m := by
  have hlen : (dataPositions (codeLength m)).length + m = codeLength m :=
    length_dataPositions_add fun _ => two_pow_le_codeLength_iff
  have hn := dataLength_add m
  omega

/-- Settles O4: a filter of an increasing list increases, and its length is `n - m`. -/
theorem dataPositionsIncreaseAndNumberK : Obligations.DataPositionsIncreaseAndNumberK :=
  ⟨fun m _ => ⟨pairwise_lt_dataPositions _, length_dataPositions_codeLength m, mem_tables_dataPos m⟩,
   by decide, by decide⟩

/-- Settles O5: the parity positions up to `2 ^ m - 1` are the first `m` powers of two. -/
theorem parityPositionsInOrder : Obligations.ParityPositionsInOrder := by
  intro m _
  have hpar : (tables m).parPos = (List.range m).map (2 ^ ·) := parityPositions_codeLength m
  exact ⟨hpar, pairwise_lt_parityPositions _, by rw [hpar, List.length_map, List.length_range]⟩

end Sys2Proof.Machine
end

section
/-! O12: the two maps between systematic index and position (spec/40_generator_matrix.md R110, R112). The index of a
data position `p` is the number of data positions below it, which is `p - ⌊log2 p⌋ - 2`. -/

namespace Sys2Proof.Machine

theorem index_cases {m c : Nat} (hc : c < codeLength m) : c < dataLength m ∨ ∃ i < m, c = dataLength m + i := by
  have hn := dataLength_add m
  rcases Nat.lt_or_ge c (dataLength m) with h | h
  · exact .inl h
  · exact .inr ⟨c - dataLength m, by omega, by omega⟩

theorem position_cases {m p : Nat} (hlo : 1 ≤ p) (hhi : p ≤ codeLength m) :
    isParity p = false ∨ ∃ i < m, p = 2 ^ i := by
  cases hp : isParity p with
  | false => exact .inl rfl
  | true =>
    obtain ⟨i, rfl⟩ := (isParity_iff hlo).1 hp
    exact .inr ⟨i, two_pow_le_codeLength_iff.1 hhi, rfl⟩

theorem positions_split {n p : Nat} (hlo : 1 ≤ p) (hhi : p ≤ n) :
    positions n = positions (p - 1) ++ p :: List.range' (p + 1) (n - p) := by
  obtain ⟨q, rfl⟩ : ∃ q, p = q + 1 := ⟨p - 1, by omega⟩
  obtain ⟨d, rfl⟩ : ∃ d, n = q + (d + 1) := ⟨n - (q + 1), by omega⟩
  have hd : q + (d + 1) - (q + 1) = d := by omega
  rw [positions, positions, ← List.range'_append_1, Nat.add_sub_cancel, hd, List.range'_succ, Nat.add_comm 1 q]

/-- The rank of a data position is the number of data positions below it. -/
theorem getElem?_dataPositions_length_pred {n p : Nat} (hlo : 1 ≤ p) (hhi : p ≤ n) (hp : isParity p = false) :
    (dataPositions n)[(dataPositions (p - 1)).length]? = some p := by
  simp [dataPositions, positions_split hlo hhi, hp]

/-- Below a data position `p` stand `⌊log2 p⌋ + 1` powers of two. -/
theorem length_dataPositions_pred {p : Nat} (hlo : 1 ≤ p) (hp : isParity p = false) :
    (dataPositions (p - 1)).length = p - Nat.log2 p - 2 := by
  have hpow (i : Nat) : 2 ^ i ≤ p - 1 ↔ i < Nat.log2 p + 1 := by
    have hne : p ≠ 2 ^ i := fun h => (isParity_eq_false_iff hlo).1 hp ⟨i, h⟩
    rw [Nat.lt_succ_iff, Nat.le_log2 (by omega)]
    omega
  have hlen := length_dataPositions_add hpow
  omega

@[simp] theorem sysIndex_two_pow (m i : Nat) : sysIndex (tables m) (2 ^ i) = dataLength m + i := by
  simp [sysIndex]

theorem sysIndex_of_data {p : Nat} (e : Engine) (hp : isParity p = false) : sysIndex e p = p - Nat.log2 p - 2 := by
  simp [sysIndex, hp]

theorem getElem?_dataPositions_sysIndex {m p : Nat} (hlo : 1 ≤ p) (hhi : p ≤ codeLength m) (hp : isParity p = false) :
    (dataPositions (codeLength m))[sysIndex (tables m) p]? = some p := by
  rw [sysIndex_of_data _ hp, ← length_dataPositions_pred hlo hp]
  exact getElem?_dataPositions_length_pred hlo hhi hp

theorem physPos_of_lt {m c : Nat} (hc : c < dataLength m) :
    physPos (tables m) c = (dataPositions (codeLength m)).getD c 0 :=
  if_pos hc

theorem getElem?_dataPositions_physPos {m c : Nat} (hc : c < dataLength m) :
    (dataPositions (codeLength m))[c]? = some (physPos (tables m) c) := by
  simp [physPos_of_lt hc, hc]

theorem physPos_dataLength_add {m i : Nat} (hi : i < m) : physPos (tables m) (dataLength m + i) = 2 ^ i := by
  simp [physPos, parityPositions_codeLength, hi]

/-- The position of a data bit is a data position. -/
theorem physPos_of_lt_mem {m c : Nat} (hc : c < dataLength m) :
    (1 ≤ physPos (tables m) c ∧ physPos (tables m) c ≤ codeLength m) ∧ isParity (physPos (tables m) c) = false :=
  (mem_dataPositions _ _).1 (List.mem_of_getElem? (getElem?_dataPositions_physPos hc))

theorem physPos_range {m c : Nat} (hc : c < codeLength m) :
    1 ≤ physPos (tables m) c ∧ physPos (tables m) c ≤ codeLength m := by
  rcases index_cases hc with hc | ⟨i, hi, rfl⟩
  · exact (physPos_of_lt_mem hc).1
  · rw [physPos_dataLength_add hi]
    exact ⟨Nat.two_pow_pos i, two_pow_le_codeLength_iff.2 hi⟩

theorem sysIndex_physPos {m c : Nat} (hc : c < codeLength m) : sysIndex (tables m) (physPos (tables m) c) = c := by
  rcases index_cases hc with hc | ⟨i, hi, rfl⟩
  · obtain ⟨⟨hlo, hhi⟩, hp⟩ := physPos_of_lt_mem hc
    have hnodup : (dataPositions (codeLength m)).Nodup := (pairwise_lt_dataPositions _).imp Nat.ne_of_lt
    refine ((List.getElem?_inj (by simpa using hc) hnodup).1 ?_).symm
    rw [getElem?_dataPositions_physPos hc, getElem?_dataPositions_sysIndex hlo hhi hp]
  · rw [physPos_dataLength_add hi, sysIndex_two_pow]

theorem sysIndex_lt_and_physPos_sysIndex {m p : Nat} (hlo : 1 ≤ p) (hhi : p ≤ codeLength m) :
    sysIndex (tables m) p < codeLength m ∧ physPos (tables m) (sysIndex (tables m) p) = p := by
  have hn := dataLength_add m
  rcases position_cases hlo hhi with hp | ⟨i, hi, rfl⟩
  · have hget := getElem?_dataPositions_sysIndex hlo hhi hp
    have hlt : sysIndex (tables m) p < dataLength m := by simpa using (List.getElem?_eq_some_iff.1 hget).1
    exact ⟨by omega, Option.some.inj ((getElem?_dataPositions_physPos hlt).symm.trans hget)⟩
  · rw [sysIndex_two_pow, physPos_dataLength_add hi]
    exact ⟨by omega, rfl⟩

theorem physPos_injective {m a b : Nat} (ha : a < codeLength m) (hb : b < codeLength m)
    (h : physPos (tables m) a = physPos (tables m) b) : a = b := by
  rw [← sysIndex_physPos ha, h, sysIndex_physPos hb]

/-- Settles O12: a data position is found in the list at its rank, a power of two behind the data bits. -/
theorem systematicIndexInvertsPosition : Obligations.SystematicIndexInvertsPosition :=
  fun m _ => ⟨fun i _ => sysIndex_two_pow m i,
    fun _ hlo _ hpow => sysIndex_of_data _ ((isParity_eq_false_iff hlo).2 hpow),
    fun _ => sysIndex_physPos, fun _ => sysIndex_lt_and_physPos_sysIndex⟩

end Sys2Proof.Machine
end

section
/-! O6, O7, O8, O9: the matrices (spec/40_generator_matrix.md R104 to R109). Each table is read by its rows: row `r` of
`G` is row `r` of `E` and then column `r` of `A`, row `i` of `P` is row `i` of `A` and then row `i` of the identity. -/

namespace Sys2Proof.Machine

/-- What holds of every numbered row of a matrix holds of every row. -/
theorem forall_row_of_getD {X : Matrix} {p : Vec → Prop} (h : ∀ i < X.length, p (X.getD i [])) :
    ∀ row ∈ X, p row := by
  refine List.forall_mem_iff_forall_getElem.2 fun i hi => ?_
  simpa [hi] using h i hi

theorem getD_identity {k a : Nat} (ha : a < k) : (identity k).getD a [] = (List.range k).map (a == ·) := by
  simp [identity, ha]

theorem length_getD_identity {k a : Nat} (ha : a < k) : ((identity k).getD a []).length = k := by
  simp [identity, ha]

/-- The identity is its own transpose. -/
theorem col_identity {k r : Nat} (hr : r < k) : col (identity k) r = (identity k).getD r [] := by
  rw [getD_identity hr]
  simp [col, identity, hr, BEq.comm]

theorem getD_tables_R {m i : Nat} (hi : i < m) : (tables m).R.getD i [] =
    responsibilitySet (dataPositions (codeLength m)) (dataLength m) i := by
  simp [tables_R, responsibilityMap, hi]

theorem getD_tables_A {m i : Nat} (hi : i < m) : (tables m).A.getD i [] =
    parityRow (identity (dataLength m)) (dataLength m) ((tables m).R.getD i []) := by
  simp [tables_A, parityMatrix, hi]

theorem getD_tables_G {m r : Nat} (hr : r < dataLength m) :
    (tables m).G.getD r [] = (identity (dataLength m)).getD r [] ++ col (tables m).A r := by
  rw [← col_identity hr]
  simp [tables_G, generatorMatrix, transpose, vstack, col, hr]

theorem getD_tables_P {m i : Nat} (hi : i < m) :
    (tables m).P.getD i [] = (tables m).A.getD i [] ++ (identity m).getD i [] := by
  simp [tables_P, checkMatrix, hcat, hi]

theorem mem_getD_tables_R {m i j : Nat} (hi : i < m) : j ∈ (tables m).R.getD i [] ↔
    j < dataLength m ∧ bit ((tables m).dataPos.getD j 0) i = true := by
  rw [getD_tables_R hi]
  exact mem_responsibilitySet ..

theorem lt_of_mem_getD_tables_R {m i j : Nat} (hi : i < m) (hj : j ∈ (tables m).R.getD i []) : j < dataLength m :=
  ((mem_getD_tables_R hi).1 hj).1

theorem pairwise_lt_getD_tables_R {m i : Nat} (hi : i < m) : ((tables m).R.getD i []).Pairwise (· < ·) := by
  rw [getD_tables_R hi]
  exact List.pairwise_lt_range.filter _

theorem entry_tables_A {m i j : Nat} (hi : i < m) (hj : j < dataLength m) :
    entry (tables m).A i j = decide (j ∈ (tables m).R.getD i []) := by
  have hnodup : ((tables m).R.getD i []).Nodup := (pairwise_lt_getD_tables_R hi).imp Nat.ne_of_lt
  rw [entry, getD_tables_A hi]
  exact getD_parityRow _ _ (fun _ => lt_of_mem_getD_tables_R hi) hnodup j hj

/-- Settles O6: `A` sums the unit vectors a responsibility set names, so its row is 1 at the members of the set. -/
theorem parityMatrixEntries : Obligations.ParityMatrixEntries := by
  refine ⟨fun m _ => ⟨length_tables_R m,
    fun i hi => ⟨pairwise_lt_getD_tables_R hi, fun j => lt_of_mem_getD_tables_R hi⟩, length_identity _,
    length_row_identity _, entry_identity _, length_tables_A m, ?rowLengths, ?entries⟩,
    by decide, by decide, by decide⟩
  case rowLengths =>
    exact forall_row_of_getD fun i hi => length_row_tables_A m i (by simpa using hi)
  case entries =>
    intro i j hi hj
    exact ⟨by simp [entry_tables_A hi hj], by simp only [mem_getD_tables_R hi, hj, true_and]⟩

theorem entry_tables_G_of_lt {m r c : Nat} (hr : r < dataLength m) (hc : c < dataLength m) :
    entry (tables m).G r c = decide (r = c) := by
  rw [entry, getD_tables_G hr, List.getD_append _ _ _ _ (by rwa [length_getD_identity hr])]
  exact entry_identity _ _ _ hr hc

theorem entry_tables_G_dataLength_add {m r : Nat} (hr : r < dataLength m) (i : Nat) :
    entry (tables m).G r (dataLength m + i) = entry (tables m).A i r := by
  rw [entry, getD_tables_G hr, List.getD_append_right _ _ _ _ (by rw [length_getD_identity hr]; omega),
    length_getD_identity hr, Nat.add_sub_cancel_left, getD_col]

theorem length_row_tables_G (m : Nat) : ∀ row ∈ (tables m).G, row.length = codeLength m := by
  refine forall_row_of_getD fun r hr => ?_
  rw [length_tables_G] at hr
  rw [getD_tables_G hr, List.length_append, length_getD_identity hr, length_col, length_tables_A, dataLength_add]

/-- Settles O7: both blocks are read off the rows of `G`. -/
theorem generatorMatrixIsSystematic : Obligations.GeneratorMatrixIsSystematic :=
  ⟨fun m _ => ⟨length_tables_G m, length_row_tables_G m, fun _ _ => entry_tables_G_of_lt,
    fun _ i hr _ => entry_tables_G_dataLength_add hr i,
    fun hk => List.eq_nil_of_length_eq_zero ((length_tables_G m).trans hk)⟩, by decide⟩

theorem entry_tables_P_of_lt {m i c : Nat} (hi : i < m) (hc : c < dataLength m) :
    entry (tables m).P i c = entry (tables m).A i c := by
  rw [entry, getD_tables_P hi, List.getD_append _ _ _ _ (by rwa [length_row_tables_A m i hi]), entry]

theorem entry_tables_P_dataLength_add {m i t : Nat} (hi : i < m) (ht : t < m) :
    entry (tables m).P i (dataLength m + t) = decide (t = i) := by
  have hlen := length_row_tables_A m i hi
  rw [entry, getD_tables_P hi, List.getD_append_right _ _ _ _ (by omega), hlen, Nat.add_sub_cancel_left]
  exact (entry_identity m i t hi ht).trans (by simp [eq_comm])

theorem length_row_tables_P (m : Nat) : ∀ row ∈ (tables m).P, row.length = codeLength m := by
  refine forall_row_of_getD fun i hi => ?_
  rw [length_tables_P] at hi
  rw [getD_tables_P hi, List.length_append, length_row_tables_A m i hi, length_getD_identity hi, dataLength_add]

/-- Settles O8: both blocks are read off the rows of `P`. -/
theorem checkMatrixIsSystematic : Obligations.CheckMatrixIsSystematic :=
  ⟨fun m _ => ⟨length_tables_P m, length_row_tables_P m, fun _ _ => entry_tables_P_of_lt,
    fun _ _ => entry_tables_P_dataLength_add⟩, by decide⟩

theorem dot_append {v u : Vec} (h : v.length = u.length) (v' u' : Vec) :
    dot (v ++ v') (u ++ u') = xor (dot v u) (dot v' u') := by
  simp [dot, List.zipWith_append h]

/-- A sum in which one term at most is not 0. -/
theorem xorSum_range_single (r k : Nat) (f : Nat → Bit) :
    xorSum ((List.range k).map fun c => decide (r = c) && f c) = (decide (r < k) && f r) := by
  induction k with
  | zero => simp
  | succ k ih =>
    rw [List.range_succ, List.map_append, xorSum_append, ih]
    rcases Nat.lt_trichotomy r k with h | rfl | h
    · simp [h, Nat.ne_of_lt h, Nat.lt_succ_of_lt h]
    · simp
    · simp [Nat.ne_of_gt h, Nat.not_lt_of_gt h, Nat.not_lt.2 h]

/-- The inner product with row `r` of the identity picks out element `r`. -/
theorem dot_getD_identity {k r : Nat} {v : Vec} (hr : r < k) (hv : v.length = k) :
    dot ((identity k).getD r []) v = v.getD r false := by
  have hlen := length_getD_identity hr
  have hrow : ∀ c ∈ List.range k, (((identity k).getD r []).getD c false && v.getD c false) =
      (decide (r = c) && v.getD c false) := fun c hc => by
    rw [← entry_identity k r c hr (List.mem_range.1 hc), entry]
  rw [dot_eq_sum_range _ _ (hlen.trans hv.symm), hlen, List.map_congr_left hrow, xorSum_range_single]
  simp [hr]

/-- Row `r` of `G` meets row `i` of `P` in `A[i][r]` twice. -/
theorem dot_tables_G_tables_P {m r i : Nat} (hr : r < dataLength m) (hi : i < m) :
    dot ((tables m).G.getD r []) ((tables m).P.getD i []) = false := by
  have hE := length_getD_identity hr
  have hA := length_row_tables_A m i hi
  calc dot ((tables m).G.getD r []) ((tables m).P.getD i [])
      = xor (dot ((identity (dataLength m)).getD r []) ((tables m).A.getD i []))
          (dot (col (tables m).A r) ((identity m).getD i [])) := by
        rw [getD_tables_G hr, getD_tables_P hi, dot_append (hE.trans hA.symm)]
    _ = xor (entry (tables m).A i r) (entry (tables m).A i r) := by
        rw [dot_getD_identity hr hA, dot_comm (col _ _), dot_getD_identity hi (by simp), getD_col, entry]
    _ = false := Bool.xor_self _

/-- A vector whose inner product with every row of `P` is 0 has the zero syndrome. -/
theorem syndrome_eq_zeros {m : Nat} {v : Vec} (h : ∀ i < m, dot ((tables m).P.getD i []) v = false) :
    syndrome (tables m) v = zeros m := by
  refine List.eq_replicate_iff.2 ⟨length_syndrome m v, List.forall_mem_map.2 ?_⟩
  exact forall_row_of_getD fun i hi => h i (by simpa using hi)

/-- Settles O9: the two blocks of a row of `G` and a row of `P` contribute the same element of `A`. -/
theorem generatorOrthogonalToCheck : Obligations.GeneratorOrthogonalToCheck := by
  intro m r _ hr
  refine ⟨fun i => dot_tables_G_tables_P hr, syndrome_eq_zeros fun i hi => ?_⟩
  rw [dot_comm, dot_tables_G_tables_P hr hi]

end Sys2Proof.Machine
end

section
/-! O10, O11: the columns of the check matrix (spec/40_generator_matrix.md R110, R111). A column packs to its physical
position, so what the columns are follows from `physPos` and `sysIndex` being inverse. -/

namespace Sys2Proof.Machine

theorem getD_col_tables_P {m i c : Nat} (hi : i < m) (hc : c < codeLength m) :
    (col (tables m).P c).getD i false = bit (physPos (tables m) c) i := by
  rw [getD_col]
  rcases index_cases hc with hc | ⟨t, ht, rfl⟩
  · rw [entry_tables_P_of_lt hi hc, entry_tables_A hi hc, physPos_of_lt hc]
    simp only [mem_getD_tables_R hi, hc, true_and, Bool.decide_eq_true, tables_dataPos]
  · rw [entry_tables_P_dataLength_add hi ht, physPos_dataLength_add ht, bit_eq_testBit, Nat.testBit_two_pow]

/-- The syndrome value of column `c`. -/
theorem packBits_col_tables_P {m c : Nat} (hc : c < codeLength m) :
    packBits (col (tables m).P c) = physPos (tables m) c := by
  refine Nat.eq_of_testBit_eq fun i => ?_
  rw [testBit_packBits]
  rcases Nat.lt_or_ge i m with hi | hi
  · rw [getD_col_tables_P hi hc, bit_eq_testBit]
  · have hlt : physPos (tables m) c < 2 ^ i :=
      calc physPos (tables m) c ≤ codeLength m := (physPos_range hc).2
        _ < 2 ^ m := codeLength_lt m
        _ ≤ 2 ^ i := Nat.pow_le_pow_right Nat.two_pos hi
    rw [Nat.testBit_lt_two_pow hlt, List.getD_eq_default _ _ (by simpa using hi)]

/-- Settles O10: element by element, then packed. -/
theorem checkColumnIsPhysicalPosition : Obligations.CheckColumnIsPhysicalPosition :=
  ⟨fun _ _ _ hc => ⟨fun _ hi => getD_col_tables_P hi hc, packBits_col_tables_P hc, fun _ => physPos_of_lt,
    fun _ => physPos_dataLength_add⟩, by decide⟩

theorem col_tables_P_injective {m a b : Nat} (ha : a < codeLength m) (hb : b < codeLength m)
    (h : col (tables m).P a = col (tables m).P b) : a = b := by
  refine physPos_injective ha hb ?_
  rw [← packBits_col_tables_P ha, h, packBits_col_tables_P hb]

theorem col_tables_P_ne_zeros {m c : Nat} (hc : c < codeLength m) : col (tables m).P c ≠ zeros m := by
  intro h
  have hpos := (physPos_range hc).1
  rw [← packBits_col_tables_P hc, h, packBits_zeros] at hpos
  omega

theorem packBits_pos {m : Nat} {v : Vec} (hlen : v.length = m) (hv : v ≠ zeros m) : 1 ≤ packBits v :=
  Nat.pos_of_ne_zero fun h => hv (packBits_injective _ _ (by simp [hlen]) (by simp [h]))

theorem packBits_le_codeLength {m : Nat} {v : Vec} (hlen : v.length = m) : packBits v ≤ codeLength m :=
  Nat.le_pred_of_lt (hlen ▸ packBits_lt v)

/-- A non-zero vector is the column at the systematic index of its value. -/
theorem col_tables_P_sysIndex {m : Nat} {v : Vec} (hlen : v.length = m) (hv : v ≠ zeros m) :
    sysIndex (tables m) (packBits v) < codeLength m ∧ col (tables m).P (sysIndex (tables m) (packBits v)) = v := by
  obtain ⟨hlt, hpos⟩ := sysIndex_lt_and_physPos_sysIndex (packBits_pos hlen hv) (packBits_le_codeLength hlen)
  exact ⟨hlt, packBits_injective _ _ (by simp [hlen]) ((packBits_col_tables_P hlt).trans hpos)⟩

/-- Settles O11: columns of one value stand at one index, and every value `1..n` has an index. -/
theorem checkColumnsAreAllNonzeroVectors : Obligations.CheckColumnsAreAllNonzeroVectors := by
  refine fun m _ => ⟨fun _ _ => col_tables_P_injective, fun _ => col_tables_P_ne_zeros, fun v hlen hv => ?_⟩
  obtain ⟨hlt, hcol⟩ := col_tables_P_sysIndex hlen hv
  exact ⟨_, ⟨hlt, hcol⟩, fun c hc => col_tables_P_injective hc.1 hlt (hc.2.trans hcol.symm)⟩

end Sys2Proof.Machine
end

section
/-! O14, O13: the matrix ports (spec/40_generator_matrix.md R115) and the codes of `M = 1` and `M = 2` (R113). A port is
a matrix flattened and packed, and it reads no field of the state but `engine`. -/

namespace Sys2Proof.Machine

theorem getD_flatten_eq_entry {X : Matrix} {n : Nat} (hX : ∀ row ∈ X, row.length = n) (r : Nat) {c : Nat}
    (hc : c < n) : X.flatten.getD (r * n + c) false = entry X r c := by
  induction X generalizing r with
  | nil => rfl
  | cons row X ih =>
    have hrow : row.length = n := hX row (by simp)
    cases r with
    | zero => rw [List.flatten_cons, List.getD_append _ _ _ _ (by omega), Nat.zero_mul, Nat.zero_add]; rfl
    | succ r =>
      have hidx : (r + 1) * n + c - row.length = r * n + c := by rw [hrow, Nat.succ_mul]; omega
      rw [List.flatten_cons, List.getD_append_right _ _ _ _ (by rw [hrow, Nat.succ_mul]; omega), hidx]
      exact ih (fun row h => hX row (List.mem_cons_of_mem _ h)) r

theorem length_flatten_of_rows {X : Matrix} {n : Nat} (hX : ∀ row ∈ X, row.length = n) :
    X.flatten.length = X.length * n := by
  rw [List.length_flatten, List.map_congr_left hX, List.map_const', List.sum_replicate, smul_eq_mul]

/-- Bit `r * n + c` of a packed matrix of `n` columns. -/
theorem bit_packBits_flatten {X : Matrix} {n : Nat} (hX : ∀ row ∈ X, row.length = n) (r : Nat) {c : Nat}
    (hc : c < n) : bit (packBits X.flatten) (r * n + c) = entry X r c := by
  rw [bit_eq_testBit, testBit_packBits, getD_flatten_eq_entry hX r hc]

theorem packBits_flatten_lt {X : Matrix} {k n : Nat} (hk : X.length = k) (hX : ∀ row ∈ X, row.length = n) :
    packBits X.flatten < 2 ^ (k * n) := by
  rw [← hk, ← length_flatten_of_rows hX]
  exact packBits_lt _

/-- The matrix ports in two states with one engine value. -/
theorem matrixPorts_congr {s t : State} (h : t.engine = s.engine) (ch ch' : PortChoice) (rst rst' : Bool) :
    (portOutputs ch' rst' t).gMatrix = (portOutputs ch rst s).gMatrix ∧
    (portOutputs ch' rst' t).pMatrix = (portOutputs ch rst s).pMatrix :=
  ⟨congrArg gMatrixPort h, congrArg pMatrixPort h⟩

/-- Settles O14: bits and widths of a flattened matrix, and `engine` kept by every step and edge. -/
theorem matrixPortsAreConstantRowMajor : Obligations.MatrixPortsAreConstantRowMajor := by
  refine ⟨fun m s ch rst _ he => ?_, fun p ch ch' inp rst rst' s t h => ?_⟩
  · have hG : (portOutputs ch rst s).gMatrix = packBits (tables m).G.flatten := congrArg gMatrixPort he
    have hP : (portOutputs ch rst s).pMatrix = packBits (tables m).P.flatten := congrArg pMatrixPort he
    rw [hG, hP]
    exact ⟨fun r _ _ => bit_packBits_flatten (length_row_tables_G m) r,
      packBits_flatten_lt (length_tables_G m) (length_row_tables_G m),
      fun i _ _ => bit_packBits_flatten (length_row_tables_P m) i,
      packBits_flatten_lt (length_tables_P m) (length_row_tables_P m)⟩
  · exact matrixPorts_congr (h.elim step_engine edge_engine) ch ch' rst rst'

/-- Settles O13: the tables of both codes, computed. -/
theorem smallCodes : Obligations.SmallCodes := ⟨rfl, by decide, by decide⟩

end Sys2Proof.Machine
end

section
/-! O21, O23, O24: the codeword of a word (spec/41_encoder.md R130 to R133). Column `c` of `G` is row `c` of the stack
of `E` and `A`, so `w * G` is the word itself and then its parity bits. -/

namespace Sys2Proof.Machine

/-- A list is read off its own indices. -/
theorem map_getD_range {α : Type} (l : List α) (d : α) : (List.range l.length).map (l.getD · d) = l :=
  List.ext_getElem (by simp) fun i _ hi => by simp [hi]

theorem col_transpose {X : Matrix} {n c : Nat} (hrow : (X.getD c []).length = n) :
    col (transpose X n) c = X.getD c [] := by
  calc col (transpose X n) c = (List.range n).map (entry X c ·) := by
        rw [col, transpose, List.map_map]
        exact List.map_congr_left fun a _ => getD_col X a c
    _ = X.getD c [] := hrow ▸ map_getD_range (X.getD c []) false

theorem col_tables_G_of_lt {m j : Nat} (hj : j < dataLength m) :
    col (tables m).G j = (identity (dataLength m)).getD j [] := by
  have hstack : (vstack (identity (dataLength m)) (tables m).A).getD j [] = (identity (dataLength m)).getD j [] :=
    List.getD_append _ _ _ _ (by simpa using hj)
  rw [tables_G, generatorMatrix, col_transpose (by rw [hstack, length_getD_identity hj]), hstack]

theorem col_tables_G_dataLength_add {m i : Nat} (hi : i < m) :
    col (tables m).G (dataLength m + i) = (tables m).A.getD i [] := by
  have hstack : (vstack (identity (dataLength m)) (tables m).A).getD (dataLength m + i) [] =
      (tables m).A.getD i [] := by
    rw [vstack, List.getD_append_right _ _ _ _ (by simp), length_identity, Nat.add_sub_cancel_left]
  rw [tables_G, generatorMatrix, col_transpose (by rw [hstack, length_row_tables_A m i hi]), hstack]

theorem dot_zeros (k : Nat) (v : Vec) : dot (zeros k) v = false := by
  induction k generalizing v with
  | zero => rfl
  | succ k ih =>
    cases v with
    | nil => rfl
    | cons b v => exact (Bool.false_xor _).trans (ih v)

/-- The inner product with a sum of rows of the identity adds up the elements that the rows pick out. -/
theorem dot_parityRow_identity {k : Nat} {set : List Nat} {w : Vec} (hset : ∀ j ∈ set, j < k) (hw : w.length = k) :
    dot (parityRow (identity k) k set) w = xorSum (set.map (w.getD · false)) := by
  induction set with
  | nil => exact dot_zeros k w
  | cons j set ih =>
    have hj : j < k := hset j List.mem_cons_self
    have hrest : ∀ a ∈ set, a < k := fun a ha => hset a (List.mem_cons_of_mem j ha)
    have hlen : ((identity k).getD j []).length = (parityRow (identity k) k set).length := by
      rw [length_getD_identity hj, length_parityRow k set hrest]
    calc dot (xorVec ((identity k).getD j []) (parityRow (identity k) k set)) w
        = xor (dot ((identity k).getD j []) w) (dot (parityRow (identity k) k set) w) := dot_xorVec _ _ _ hlen
      _ = xor (w.getD j false) (xorSum (set.map (w.getD · false))) := by
        rw [dot_getD_identity hj hw, ih hrest]

/-- Row `i` of `A` computes parity bit `i`. -/
theorem dot_getD_tables_A {m i : Nat} {w : Vec} (hi : i < m) (hw : w.length = dataLength m) :
    dot ((tables m).A.getD i []) w = parityOf m w i := by
  rw [getD_tables_A hi, dot_parityRow_identity (fun _ => lt_of_mem_getD_tables_R hi) hw, getD_tables_R hi, parityOf]

theorem dot_col_tables_G_of_lt {m j : Nat} {w : Vec} (hj : j < dataLength m) (hw : w.length = dataLength m) :
    dot w (col (tables m).G j) = w.getD j false := by
  rw [col_tables_G_of_lt hj, dot_comm, dot_getD_identity hj hw]

theorem dot_col_tables_G_dataLength_add {m i : Nat} {w : Vec} (hi : i < m) (hw : w.length = dataLength m) :
    dot w (col (tables m).G (dataLength m + i)) = parityOf m w i := by
  rw [col_tables_G_dataLength_add hi, dot_comm, dot_getD_tables_A hi hw]

/-- A codeword is its word followed by the parity bits. -/
theorem codewordOf_eq {m : Nat} {w : Vec} (hw : w.length = dataLength m) :
    codewordOf m w = w ++ (List.range m).map (parityOf m w) := by
  have hdata : ∀ j ∈ List.range (dataLength m), dot w (col (tables m).G j) = w.getD j false :=
    fun j hj => dot_col_tables_G_of_lt (List.mem_range.1 hj) hw
  have hparity : ∀ i ∈ List.range m, dot w (col (tables m).G (dataLength m + i)) = parityOf m w i :=
    fun i hi => dot_col_tables_G_dataLength_add (List.mem_range.1 hi) hw
  have hword : (List.range (dataLength m)).map (w.getD · false) = w := hw ▸ map_getD_range w false
  rw [codewordOf, vecMul, ← dataLength_add, List.range_add, List.map_append, List.map_map,
    List.map_congr_left hdata, hword]
  exact congrArg (w ++ ·) (List.map_congr_left hparity)

@[simp] theorem length_codewordOf (m : Nat) (w : Vec) : (codewordOf m w).length = codeLength m := length_vecMul ..

theorem length_bits_of_acceptedWord {m : Nat} {word : List Char8} (h : AcceptedWord m word) :
    (word.map (· == 0x31#8)).length = dataLength m :=
  (List.length_map _).trans h.1

theorem dataWord_of_acceptedWord {m : Nat} {word : List Char8} (h : AcceptedWord m word) :
    dataWord (tables m) word = .ok (word.map (· == 0x31#8)) := by
  obtain ⟨hlen, hchars⟩ := h
  have hall : word.all isWordChar = true := List.all_eq_true.2 fun c hc => by simpa [isWordChar] using hchars c hc
  rw [dataWord, if_neg (by simpa using hlen), if_pos hall]
  rfl

/-- ENCODE of an accepted word answers its codeword. -/
theorem exec_encode_of_acceptedWord {m : Nat} {s : State} {word : List Char8} (he : s.engine = tables m)
    (h : AcceptedWord m word) :
    exec (.encode word) s = answers s { vec := codewordOf m (word.map (· == 0x31#8)) } := by
  rw [exec_eq_answer, he, resultOf, encodeResult, dataWord_of_acceptedWord h]
  rfl

/-- CHECK of one row of length `n` answers whether its syndrome is zero. -/
theorem exec_check_row {m : Nat} {s : State} {v : Vec} (he : s.engine = tables m) (hv : v.length = codeLength m) :
    exec (.check [v]) s = answers s { flag := zeroSyndrome (tables m) v } := by
  rw [exec_eq_answer, he, resultOf, checkResult, codewordOperand_row hv]
  rfl

/-- Settles O21: ENCODE answers `w * G`, which is the word and then its parity bits. -/
theorem encodeAnswersDataThenParity : Obligations.EncodeAnswersDataThenParity := by
  intro m s word _ he h
  have hcode := codewordOf_eq (length_bits_of_acceptedWord h)
  exact ⟨hcode ▸ exec_encode_of_acceptedWord he h, hcode⟩

/-- Row `i` of `P` meets a codeword in parity bit `i` twice. -/
theorem syndrome_codewordOf {m : Nat} {w : Vec} (hw : w.length = dataLength m) :
    syndrome (tables m) (codewordOf m w) = zeros m := by
  refine syndrome_eq_zeros fun i hi => ?_
  have hA := length_row_tables_A m i hi
  calc dot ((tables m).P.getD i []) (codewordOf m w)
      = xor (dot ((tables m).A.getD i []) w) (dot ((identity m).getD i []) ((List.range m).map (parityOf m w))) := by
        rw [getD_tables_P hi, codewordOf_eq hw, dot_append (hA.trans hw.symm)]
    _ = xor (parityOf m w i) (parityOf m w i) := by
        rw [dot_getD_tables_A hi hw, dot_getD_identity hi (by simp)]
        simp [hi]
    _ = false := Bool.xor_self _

/-- Settles O23: the codeword is `w * G`, and it has length `n` and a zero syndrome. -/
theorem encodedWordChecksValid : Obligations.EncodedWordChecksValid := by
  intro m s s' word _ he he' h
  have hsyn := syndrome_codewordOf (length_bits_of_acceptedWord h)
  refine ⟨_, exec_encode_of_acceptedWord he h, hsyn, ?_⟩
  rw [exec_check_row he' (length_codewordOf _ _), zeroSyndrome, hsyn, tables_m, beq_self_eq_true]

theorem vecMul_xorVec {w u : Vec} (h : w.length = u.length) (X : Matrix) (n : Nat) :
    vecMul (xorVec w u) X n = xorVec (vecMul w X n) (vecMul u X n) := by
  have helem : vecMul (xorVec w u) X n = (List.range n).map fun c => xor (dot w (col X c)) (dot u (col X c)) :=
    List.map_congr_left fun c _ => dot_xorVec w u (col X c) h
  rw [helem, xorVec, vecMul, vecMul, List.zipWith_map, List.zipWith_self]

theorem vecMul_zeros (k : Nat) (X : Matrix) (n : Nat) : vecMul (zeros k) X n = zeros n := by
  simp only [vecMul, dot_zeros]
  rw [List.map_const', List.length_range, zeros]

theorem codewordOf_injective {m : Nat} {w u : Vec} (hw : w.length = dataLength m) (hu : u.length = dataLength m)
    (h : codewordOf m w = codewordOf m u) : w = u := by
  rw [codewordOf_eq hw, codewordOf_eq hu] at h
  exact List.append_inj_left h (hw.trans hu.symm)

theorem packBits_unpackBits {k x : Nat} (hx : x < 2 ^ k) : packBits (unpackBits k x) = x := by
  refine Nat.eq_of_testBit_eq fun i => ?_
  rw [testBit_packBits]
  rcases Nat.lt_or_ge i k with hi | hi
  · simp [unpackBits, hi]
  · rw [List.getD_eq_default _ _ (by simpa using hi),
      Nat.testBit_lt_two_pow (Nat.lt_of_lt_of_le hx (Nat.pow_le_pow_right Nat.two_pos hi))]

/-- Every vector of `k` bits, in the order of the numbers they pack to. -/
def allVectors (k : Nat) : List Vec := (List.range (2 ^ k)).map (unpackBits k)

@[simp] theorem length_allVectors (k : Nat) : (allVectors k).length = 2 ^ k := by simp [allVectors]

theorem mem_allVectors {k : Nat} {v : Vec} : v ∈ allVectors k ↔ v.length = k := by
  refine ⟨fun h => ?_, fun h => ?_⟩
  · obtain ⟨x, _, rfl⟩ := List.mem_map.1 h
    exact length_unpackBits k x
  · subst h
    exact List.mem_map.2 ⟨packBits v, List.mem_range.2 (packBits_lt v), unpackBits_packBits v⟩

theorem nodup_allVectors (k : Nat) : (allVectors k).Nodup :=
  List.nodup_range.map_on fun x hx y hy h => by
    rw [← packBits_unpackBits (List.mem_range.1 hx), h, packBits_unpackBits (List.mem_range.1 hy)]

/-- Settles O24: the product is linear, the word is the data part of its codeword, and the code is the image of all
words of `k` bits. -/
theorem encodingIsLinearAndInjective : Obligations.EncodingIsLinearAndInjective := by
  refine fun m _ => ⟨fun w u hw hu => vecMul_xorVec (hw.trans hu.symm) _ _, vecMul_zeros _ _ _,
    fun w u => codewordOf_injective, (allVectors (dataLength m)).map (codewordOf m), ?nodup, by simp, ?mem⟩
  case nodup =>
    exact (nodup_allVectors _).map_on fun w hw u hu =>
      codewordOf_injective (mem_allVectors.1 hw) (mem_allVectors.1 hu)
  case mem =>
    exact fun v => by simp only [List.mem_map, mem_allVectors, eq_comm]

end Sys2Proof.Machine
end

section
/-! O25: the all-ones word (spec/41_encoder.md R134). Of the positions `1..n`, `2 ^ (m - 1)` have bit `i` set, and one
of these is a parity position. -/

namespace Sys2Proof.Machine

/-- Half of the numbers below a power of two have bit `i` set. -/
theorem countP_testBit_range {m i : Nat} (hi : i ≤ m) :
    (List.range (2 ^ (m + 1))).countP (·.testBit i) = 2 ^ m := by
  induction m with
  | zero => rw [Nat.le_zero.1 hi]; decide
  | succ m ih =>
    have hsplit : (List.range (2 ^ (m + 2))).countP (·.testBit i) =
        (List.range (2 ^ (m + 1))).countP (·.testBit i) +
          (List.range (2 ^ (m + 1))).countP (fun x => (2 ^ (m + 1) + x).testBit i) := by
      rw [Nat.pow_succ 2 (m + 1), Nat.mul_two, List.range_add, List.countP_append, List.countP_map]
      rfl
    rw [hsplit]
    rcases Nat.lt_or_eq_of_le hi with hlt | rfl
    · have hhigh (x : Nat) : (2 ^ (m + 1) + x).testBit i = x.testBit i := Nat.testBit_two_pow_add_gt hlt x
      simp only [hhigh, ih (Nat.le_of_lt_succ hlt)]
      rw [Nat.pow_succ, Nat.mul_two]
    · have hbit : ∀ x ∈ List.range (2 ^ (m + 1)), x.testBit (m + 1) = false :=
        fun x hx => Nat.testBit_lt_two_pow (List.mem_range.1 hx)
      have hlow : (List.range (2 ^ (m + 1))).countP (·.testBit (m + 1)) = 0 :=
        List.countP_eq_zero.2 fun x hx => by simp [hbit x hx]
      have hhigh : (List.range (2 ^ (m + 1))).countP (fun x => (2 ^ (m + 1) + x).testBit (m + 1)) = 2 ^ (m + 1) :=
        (List.countP_eq_length.2 fun x hx => by simp [Nat.testBit_two_pow_add_eq, hbit x hx]).trans List.length_range
      rw [hlow, hhigh, Nat.zero_add]

theorem countP_testBit_positions {m i : Nat} (hi : i < m) :
    (positions (codeLength m)).countP (·.testBit i) = 2 ^ (m - 1) := by
  obtain ⟨m, rfl⟩ : ∃ d, m = d + 1 := ⟨m - 1, by omega⟩
  have hn : 2 ^ (m + 1) = codeLength (m + 1) + 1 := by
    have hpos := Nat.two_pow_pos (m + 1)
    rw [codeLength]
    omega
  rw [Nat.add_sub_cancel, ← countP_testBit_range (Nat.le_of_lt_succ hi), hn, List.range_eq_range', List.range'_succ,
    List.countP_cons_of_neg (by simp), positions]

/-- Of the parity positions, only `2 ^ i` has bit `i` set. -/
theorem countP_testBit_parityPositions {m i : Nat} (hi : i < m) :
    (parityPositions (codeLength m)).countP (·.testBit i) = 1 := by
  calc (parityPositions (codeLength m)).countP (·.testBit i) = (List.range m).count i := by
        rw [parityPositions_codeLength, List.countP_map, List.count]
        exact List.countP_congr fun j _ => by simp [Nat.testBit_two_pow]
    _ = 1 := by rw [List.count_range, if_pos hi]

theorem countP_testBit_dataPositions {m i : Nat} (hi : i < m) :
    (dataPositions (codeLength m)).countP (·.testBit i) = 2 ^ (m - 1) - 1 := by
  have hsplit : (positions (codeLength m)).countP (·.testBit i) =
      (parityPositions (codeLength m)).countP (·.testBit i) + (dataPositions (codeLength m)).countP (·.testBit i) :=
    List.countP_eq_countP_filter_add _ _ isParity
  rw [countP_testBit_positions hi, countP_testBit_parityPositions hi] at hsplit
  omega

/-- A responsibility set has one index for each data position with its bit set. -/
theorem length_getD_tables_R {m i : Nat} (hi : i < m) : ((tables m).R.getD i []).length = 2 ^ (m - 1) - 1 := by
  have hmap := map_getD_range (dataPositions (codeLength m)) 0
  rw [length_dataPositions_codeLength] at hmap
  calc ((tables m).R.getD i []).length
      = ((List.range (dataLength m)).map ((dataPositions (codeLength m)).getD · 0)).countP (·.testBit i) := by
        rw [getD_tables_R hi, responsibilitySet, ← List.countP_eq_length_filter, List.countP_map]
        simp only [bit_eq_testBit]
        rfl
    _ = 2 ^ (m - 1) - 1 := by rw [hmap, countP_testBit_dataPositions hi]

theorem length_getD_tables_R_odd {m i : Nat} (hm : 2 ≤ m) (hi : i < m) :
    ((tables m).R.getD i []).length % 2 = 1 := by
  obtain ⟨d, rfl⟩ : ∃ d, m = d + 2 := ⟨m - 2, by omega⟩
  have hpos := Nat.two_pow_pos d
  have hpow : 2 ^ (d + 2 - 1) = 2 * 2 ^ d := Nat.pow_succ'
  rw [length_getD_tables_R hi, hpow]
  omega

theorem xorSum_replicate_true (n : Nat) : xorSum (List.replicate n true) = decide (n % 2 = 1) := by
  induction n with
  | zero => rfl
  | succ n ih =>
    have hodd : (n + 1) % 2 = 1 ↔ ¬ n % 2 = 1 := by omega
    rw [List.replicate_succ, xorSum_cons, ih, Bool.true_xor, ← decide_not, decide_eq_decide.2 hodd]

/-- A parity bit of the all-ones word adds up an odd number of ones. -/
theorem parityOf_replicate_true {m i : Nat} (hm : 2 ≤ m) (hi : i < m) :
    parityOf m (List.replicate (dataLength m) true) i = true := by
  have hones : ∀ j ∈ (tables m).R.getD i [], (List.replicate (dataLength m) true).getD j false = true :=
    fun j hj => by simp [lt_of_mem_getD_tables_R hi hj]
  rw [parityOf, ← getD_tables_R hi, List.map_congr_left hones, List.map_const', xorSum_replicate_true,
    length_getD_tables_R_odd hm hi]
  rfl

theorem codewordOf_replicate_true {m : Nat} (hm : 2 ≤ m) :
    codewordOf m (List.replicate (dataLength m) true) = List.replicate (codeLength m) true := by
  have hparity : ∀ i ∈ List.range m, parityOf m (List.replicate (dataLength m) true) i = true :=
    fun i hi => parityOf_replicate_true hm (List.mem_range.1 hi)
  rw [codewordOf_eq List.length_replicate, List.map_congr_left hparity, List.map_const', List.length_range,
    List.replicate_append_replicate, dataLength_add]

/-- Settles O25: each parity bit of the all-ones word is a sum of an odd number of ones. -/
theorem allOnesWordEncodesToAllOnes : Obligations.AllOnesWordEncodesToAllOnes := by
  refine fun m s hm he => ⟨fun i hi => ⟨length_getD_tables_R hi, length_getD_tables_R_odd hm hi⟩, ?_⟩
  have haccepted : AcceptedWord m (List.replicate (dataLength m) 0x31#8) :=
    ⟨List.length_replicate, fun c hc => .inr (List.eq_of_mem_replicate hc)⟩
  rw [exec_encode_of_acceptedWord he haccepted, List.map_replicate, beq_self_eq_true, codewordOf_replicate_true hm]

end Sys2Proof.Machine
end

section
/-! O36: the checks of the codeword operand (spec/42_syndrome_decoder.md R150, R151). The four requests that take a
codeword all hand on its error, so one lemma carries an error of the operand to the answer. -/

namespace Sys2Proof.Machine

theorem codewordOperand_of_two_le {rows : List Vec} (h : 2 ≤ rows.length) (e : Engine) :
    codewordOperand e rows = .error .multiRowInput := by
  obtain _ | ⟨row, _ | ⟨row', rest⟩⟩ := rows
  · simp at h
  · simp at h
  · rfl

theorem codewordOperand_nil {e : Engine} (h : 1 ≤ e.n) : codewordOperand e [] = .error .invalidCodewordLength :=
  if_pos (Nat.ne_of_lt h)

theorem codewordOperand_row_of_length_ne {e : Engine} {v : Vec} (h : v.length ≠ e.n) :
    codewordOperand e [v] = .error .invalidCodewordLength :=
  if_pos h

/-- An error of the codeword operand is the result of every request that takes one. -/
theorem resultOf_codewordOperand_error {e : Engine} {rows : List Vec} {kind : ErrorKind} {pos : Int} {i : Instr}
    (hi : i = .check rows ∨ i = .correct rows ∨ i = .decode rows ∨ i = .bitflip rows pos)
    (h : codewordOperand e rows = .error kind) : resultOf e i = .error kind := by
  rcases hi with rfl | rfl | rfl | rfl
  · rw [resultOf, checkResult, h]
  · rw [resultOf, correctResult, correctionOfRows, h]
  · rw [resultOf, decodeResult, correctionOfRows, h]
  · rw [resultOf, bitflipResult, h]

theorem exec_of_resultOf {e : Engine} {s : State} {i : Instr} {x : Except ErrorKind Response} (he : s.engine = e)
    (h : resultOf e i = x) : exec i s = answers s (responseOf x) := by
  rw [exec_eq_answer, he, h]
  rfl

/-- Settles O36: the row count is judged first, and a row only where it is the only one. -/
theorem codewordOperandErrors : Obligations.CodewordOperandErrors := by
  intro m s rows pos i hm he hi
  refine ⟨fun hrows => ?several, fun hrows => ?noRow, fun v hrows hv => ?oneRow⟩
  case several =>
    exact exec_of_resultOf he (resultOf_codewordOperand_error hi (codewordOperand_of_two_le hrows _))
  case noRow =>
    subst hrows
    exact exec_of_resultOf he (resultOf_codewordOperand_error hi (codewordOperand_nil (codeLength_pos hm)))
  case oneRow =>
    subst hrows
    exact exec_of_resultOf he (resultOf_codewordOperand_error hi (codewordOperand_row_of_length_ne hv))

end Sys2Proof.Machine
end

section
/-! O26: the syndrome (spec/42_syndrome_decoder.md R152). Row `i` of `P` is row `i` of `A` and then a unit vector, so it
adds the recomputed parity bit `i` to the received one. A codeword is therefore determined by its data part. -/

namespace Sys2Proof.Machine

theorem getD_syndrome {m i : Nat} (hi : i < m) (v : Vec) :
    (syndrome (tables m) v).getD i false = dot ((tables m).P.getD i []) v :=
  getD_mulVec _ _ _ (by simpa using hi)

theorem length_getD_tables_P {m i : Nat} (hi : i < m) : ((tables m).P.getD i []).length = codeLength m := by
  have hrow : i < (tables m).P.length := by rwa [length_tables_P]
  rw [List.getD_eq_getElem _ _ hrow]
  exact length_row_tables_P m _ (List.getElem_mem hrow)

theorem getD_syndrome_eq_xorSum {m i : Nat} {v : Vec} (hi : i < m) (hv : v.length = codeLength m) :
    (syndrome (tables m) v).getD i false =
      xorSum ((List.range (codeLength m)).map fun c => entry (tables m).P i c && v.getD c false) := by
  have hrow := length_getD_tables_P hi
  rw [getD_syndrome hi, dot_eq_sum_range _ _ (hrow.trans hv.symm), hrow]
  rfl

/-- A parity bit reads data bits alone. -/
theorem parityOf_take (m : Nat) (v : Vec) (i : Nat) : parityOf m (v.take (dataLength m)) i = parityOf m v i := by
  refine congrArg xorSum (List.map_congr_left fun j hj => ?_)
  have hj : j < dataLength m := ((mem_responsibilitySet _ _ _ _).1 hj).1
  simp [List.getElem?_take_of_lt hj]

theorem length_take_dataLength {m : Nat} {v : Vec} (hv : v.length = codeLength m) :
    (v.take (dataLength m)).length = dataLength m := by
  have hn := dataLength_add m
  rw [List.length_take]
  omega

theorem length_drop_dataLength {m : Nat} {v : Vec} (hv : v.length = codeLength m) :
    (v.drop (dataLength m)).length = m := by
  have hn := dataLength_add m
  rw [List.length_drop]
  omega

theorem getD_drop_dataLength (m : Nat) (v : Vec) (i : Nat) :
    (v.drop (dataLength m)).getD i false = v.getD (dataLength m + i) false := by
  simp

/-- Element `i` of the syndrome compares the received parity bit `i` with the recomputed one. -/
theorem getD_syndrome_eq_xor_parityOf {m i : Nat} {v : Vec} (hi : i < m) (hv : v.length = codeLength m) :
    (syndrome (tables m) v).getD i false = xor (v.getD (dataLength m + i) false) (parityOf m v i) := by
  have hdata := length_take_dataLength hv
  calc (syndrome (tables m) v).getD i false
      = dot ((tables m).A.getD i [] ++ (identity m).getD i []) (v.take (dataLength m) ++ v.drop (dataLength m)) := by
        rw [getD_syndrome hi, getD_tables_P hi, List.take_append_drop]
    _ = xor (parityOf m v i) (v.getD (dataLength m + i) false) := by
        rw [dot_append ((length_row_tables_A m i hi).trans hdata.symm), dot_getD_tables_A hi hdata, parityOf_take,
          dot_getD_identity hi (length_drop_dataLength hv), getD_drop_dataLength]
    _ = xor (v.getD (dataLength m + i) false) (parityOf m v i) := Bool.xor_comm _ _

/-- The packed value is the sum of its elements' powers of two. -/
theorem packBits_eq_sum (v : Vec) :
    packBits v = ((List.range v.length).map fun i => (v.getD i false).toNat * 2 ^ i).sum := by
  induction v with
  | nil => rfl
  | cons b v ih =>
    have hshift (i : Nat) : (v.getD i false).toNat * 2 ^ (i + 1) = 2 * ((v.getD i false).toNat * 2 ^ i) := by
      rw [Nat.pow_succ]; ring
    rw [packBits_cons, ih, List.length_cons, List.range_succ_eq_map, List.map_cons, List.map_map, List.sum_cons,
      ← List.sum_map_mul_left]
    simp only [Function.comp_def, List.getD_cons_zero, List.getD_cons_succ, hshift, Nat.pow_zero, Nat.mul_one]

/-- Settles O26: the product with row `i` of `P`, and the same product cut at the end of the data bits. -/
theorem syndromeComparesParities : Obligations.SyndromeComparesParities := by
  intro m v _ hv
  have hlen := length_syndrome m v
  have hsum := packBits_eq_sum (syndrome (tables m) v)
  rw [hlen] at hsum
  exact ⟨hlen, fun i hi => ⟨getD_syndrome_eq_xorSum hi hv, getD_syndrome_eq_xor_parityOf hi hv⟩, hsum,
    packBits_le_codeLength hlen⟩

/-- The received parity bits of a codeword are the recomputed ones. -/
theorem IsCodeword.getD_parity {m i : Nat} {v : Vec} (h : IsCodeword m v) (hi : i < m) :
    v.getD (dataLength m + i) false = parityOf m v i := by
  obtain ⟨hlen, hsyn⟩ := h
  have hxor := getD_syndrome_eq_xor_parityOf hi hlen
  rw [hsyn, List.getD_eq_getElem?_getD, getElem?_zeros_getD] at hxor
  exact bne_eq_false_iff_eq.1 hxor.symm

/-- A codeword is the codeword of its own data part. -/
theorem IsCodeword.eq_codewordOf_take {m : Nat} {v : Vec} (h : IsCodeword m v) :
    v = codewordOf m (v.take (dataLength m)) := by
  have hparity : v.drop (dataLength m) = (List.range m).map (parityOf m (v.take (dataLength m))) := by
    rw [← map_getD_range (v.drop (dataLength m)) false, length_drop_dataLength h.1]
    refine List.map_congr_left fun i hi => ?_
    rw [getD_drop_dataLength, h.getD_parity (List.mem_range.1 hi), parityOf_take]
  rw [codewordOf_eq (length_take_dataLength h.1), ← hparity, List.take_append_drop]

theorem IsCodeword.eq_of_take_eq {m : Nat} {v u : Vec} (hv : IsCodeword m v) (hu : IsCodeword m u)
    (h : v.take (dataLength m) = u.take (dataLength m)) : v = u := by
  rw [hv.eq_codewordOf_take, h, ← hu.eq_codewordOf_take]

end Sys2Proof.Machine
end

section
/-! One element flipped, and its syndrome (spec/42_syndrome_decoder.md R158): the product is linear, so the flip adds one
column. -/

namespace Sys2Proof.Machine

theorem xorVec_self (v : Vec) : xorVec v v = zeros v.length := by
  simp [xorVec, zeros, List.zipWith_self]

theorem zeros_xorVec {n : Nat} {v : Vec} (h : v.length = n) : xorVec (zeros n) v = v := by
  subst h
  induction v with
  | nil => rfl
  | cons b v ih => simpa [xorVec, zeros, List.replicate_succ] using ih

theorem xorVec_comm (v u : Vec) : xorVec v u = xorVec u v := by
  rw [xorVec, xorVec, List.zipWith_comm]
  simp [Bool.xor_comm]

theorem xorVec_cancel_left {v u : Vec} (h : v.length = u.length) : xorVec v (xorVec v u) = u :=
  List.ext_getElem (by simp [xorVec, h]) fun i _ _ => by simp [xorVec]

theorem dot_flip {v : Vec} {j : Nat} (hj : j < v.length) (r : Vec) :
    dot r (flip v j) = xor (dot r v) (r.getD j false) := by
  induction v generalizing r j with
  | nil => simp at hj
  | cons b v ih =>
    cases r with
    | nil => rfl
    | cons a r =>
      cases j with
      | zero => cases a <;> simp [dot, flip]
      | succ j => simpa [dot, flip, Bool.xor_assoc] using ih (Nat.lt_of_succ_lt_succ hj) r

theorem syndrome_flip_eq_xorVec (e : Engine) {v : Vec} {j : Nat} (hj : j < v.length) :
    syndrome e (flip v j) = xorVec (syndrome e v) (col e.P j) := by
  simp only [syndrome, mulVec, xorVec, col, dot_flip hj]
  rw [List.zipWith_map, List.zipWith_self]

theorem flip_flip (v : Vec) (j : Nat) : flip (flip v j) j = v := by
  have hid : (fun b : Bit => xor b true) ∘ (xor · true) = id := funext fun b => by simp
  rw [flip, flip, List.modify_modify_eq, hid, List.modify_id]

theorem getD_flip_of_ne {v : Vec} {j i : Nat} (h : i ≠ j) : (flip v j).getD i false = v.getD i false := by
  rw [getD_flip, if_neg fun hij => h hij.1]

theorem getD_flip_self {v : Vec} {j : Nat} (h : j < v.length) : (flip v j).getD j false = !v.getD j false := by
  rw [getD_flip, if_pos ⟨rfl, h⟩]

theorem length_col_tables_P (m c : Nat) : (col (tables m).P c).length = m := by simp

theorem IsCodeword.syndrome_flip {m j : Nat} {c : Vec} (h : IsCodeword m c) (hj : j < codeLength m) :
    syndrome (tables m) (flip c j) = col (tables m).P j := by
  obtain ⟨hlen, hsyn⟩ := h
  rw [syndrome_flip_eq_xorVec _ (hlen ▸ hj), hsyn, zeros_xorVec (length_col_tables_P m j)]

theorem isCodeword_flip_of_syndrome_eq_col {m j : Nat} {v : Vec} (hv : v.length = codeLength m) (hj : j < codeLength m)
    (h : syndrome (tables m) v = col (tables m).P j) : IsCodeword m (flip v j) := by
  refine ⟨by rw [length_flip, hv], ?_⟩
  rw [syndrome_flip_eq_xorVec _ (hv ▸ hj), h, xorVec_self, length_col_tables_P]

end Sys2Proof.Machine
end

section
/-! The correction stage on a block's own tables (spec/42_syndrome_decoder.md R153, R155, R157), and what the codeword
requests answer on one row of length `n`. -/

namespace Sys2Proof.Machine

/-- A vector of `m` bits is zero or a column of `P`. -/
theorem eq_zeros_or_exists_col {m : Nat} {v : Vec} (hlen : v.length = m) :
    v = zeros m ∨ ∃ j < codeLength m, v = col (tables m).P j := by
  by_cases h : v = zeros m
  · exact .inl h
  · obtain ⟨hlt, hcol⟩ := col_tables_P_sysIndex hlen h
    exact .inr ⟨_, hlt, hcol.symm⟩

/-- The search for a column finds that column. -/
theorem findColumn_col {m j : Nat} (hj : j < codeLength m) :
    findColumn (tables m) (col (tables m).P j) = some j := by
  cases hf : findColumn (tables m) (col (tables m).P j) with
  | none =>
    have hnone := List.find?_eq_none.1 hf j (List.mem_range.2 hj)
    simp at hnone
  | some i =>
    obtain ⟨hi, hcol⟩ := findColumn_some hf
    rw [col_tables_P_injective hi hj hcol]

theorem correction_of_syndrome_eq_zeros {m : Nat} {v : Vec} (h : syndrome (tables m) v = zeros m) :
    correction (tables m) v = .ok { vec := v, corr := .valid, index := 0 } := by
  simp [correction, zeroSyndrome, h]

theorem correction_of_syndrome_eq_col {m j : Nat} {v : Vec} (hj : j < codeLength m)
    (h : syndrome (tables m) v = col (tables m).P j) :
    correction (tables m) v = .ok { vec := flip v j, corr := .corrected, index := j } := by
  have hne := col_tables_P_ne_zeros hj
  simp [correction, zeroSyndrome, h, hne, findColumn_col hj]

/-- The correction stage always gives a vector: its search runs on a column (R156). -/
theorem exists_correction_eq_ok (m : Nat) (v : Vec) : ∃ c, correction (tables m) v = .ok c := by
  rcases eq_zeros_or_exists_col (length_syndrome m v) with h | ⟨j, hj, h⟩
  · exact ⟨_, correction_of_syndrome_eq_zeros h⟩
  · exact ⟨_, correction_of_syndrome_eq_col hj h⟩

theorem correctionOfRows_row {e : Engine} {v : Vec} (hv : v.length = e.n) :
    correctionOfRows e [v] = correction e v := by
  rw [correctionOfRows, codewordOperand_row hv]

theorem exec_correct_row {m : Nat} {s : State} {v : Vec} {c : Correction} (he : s.engine = tables m)
    (hv : v.length = codeLength m) (h : correction (tables m) v = .ok c) :
    exec (.correct [v]) s = answers s { vec := c.vec, corr := c.corr, index := c.index } :=
  exec_of_resultOf (x := .ok _) he (by rw [resultOf, correctResult, correctionOfRows_row hv, h])

theorem exec_decode_row {m : Nat} {s : State} {v : Vec} {c : Correction} (he : s.engine = tables m)
    (hv : v.length = codeLength m) (h : correction (tables m) v = .ok c) :
    exec (.decode [v]) s = answers s { vec := c.vec.take (dataLength m), corr := c.corr, index := c.index } :=
  exec_of_resultOf (x := .ok _) he (by rw [resultOf, decodeResult, correctionOfRows_row hv, h, tables_k])

theorem exec_bitflip_row {m : Nat} {s : State} {v : Vec} {pos : Int} (he : s.engine = tables m)
    (hv : v.length = codeLength m) (hlo : 0 ≤ pos) (hhi : pos ≤ codeLength m) :
    exec (.bitflip [v] pos) s = answers s { vec := flip v (pos.toNat - 1), diag := positionZero pos } := by
  refine exec_of_resultOf (x := .ok _) he ?_
  have hindex : flipIndex (tables m) pos = .ok (pos.toNat - 1) := by
    rcases flipIndex_cases (tables m) pos with ⟨h, -⟩ | ⟨-, h, -⟩ | ⟨-, -, h⟩
    · rw [tables_n] at h; omega
    · omega
    · exact h
  rw [resultOf, bitflipResult, codewordOperand_row hv]
  simp only [hindex]

theorem exec_check_codeword {m : Nat} {s : State} {c : Vec} (he : s.engine = tables m) (h : IsCodeword m c) :
    exec (.check [c]) s = answers s { flag := true } := by
  obtain ⟨hlen, hsyn⟩ := h
  rw [exec_check_row he hlen, zeroSyndrome, hsyn, tables_m, beq_self_eq_true]

theorem exec_correct_codeword {m : Nat} {s : State} {c : Vec} (he : s.engine = tables m) (h : IsCodeword m c) :
    exec (.correct [c]) s = answers s { vec := c, corr := .valid, index := 0 } :=
  exec_correct_row he h.1 (correction_of_syndrome_eq_zeros h.2)

end Sys2Proof.Machine
end

section
/-! O32: no request is answered with `UncorrectableError` (spec/42_syndrome_decoder.md R156). Only the correction stage
raises it, and on a block's own tables that stage never fails. -/

namespace Sys2Proof.Machine

theorem resultOf_ok_status {e : Engine} {i : Instr} {r : Response} (h : resultOf e i = .ok r) : r.status = .ok := by
  cases i with
  | encode | check | correct | decode =>
    simp only [resultOf, encodeResult, checkResult, correctResult, decodeResult] at h
    split at h <;> cases h
    rfl
  | bitflip =>
    rw [resultOf, bitflipResult] at h
    split at h
    · cases h
    · split at h <;> cases h
      rfl

theorem dataWord_error_ne_uncorrectable {e : Engine} {word : List Char8} {kind : ErrorKind}
    (h : dataWord e word = .error kind) : kind ≠ .uncorrectableError := by
  rcases dataWord_error h with rfl | rfl <;> decide

theorem codewordOperand_error_ne_uncorrectable {e : Engine} {rows : List Vec} {kind : ErrorKind}
    (h : codewordOperand e rows = .error kind) : kind ≠ .uncorrectableError := by
  rcases codewordOperand_error h with rfl | rfl <;> decide

theorem flipIndex_error_ne_uncorrectable {e : Engine} {pos : Int} {kind : ErrorKind}
    (h : flipIndex e pos = .error kind) : kind ≠ .uncorrectableError := by
  rcases flipIndex_cases e pos with ⟨-, hf⟩ | ⟨-, -, hf⟩ | ⟨-, -, hf⟩ <;> cases hf.symm.trans h <;> decide

theorem correctionOfRows_error_ne_uncorrectable {m : Nat} {rows : List Vec} {kind : ErrorKind}
    (h : correctionOfRows (tables m) rows = .error kind) : kind ≠ .uncorrectableError := by
  rw [correctionOfRows] at h
  split at h
  · next hop =>
    cases h
    exact codewordOperand_error_ne_uncorrectable hop
  · next v _ =>
    obtain ⟨c, hc⟩ := exists_correction_eq_ok m v
    cases hc.symm.trans h

theorem resultOf_error_ne_uncorrectable {m : Nat} {i : Instr} {kind : ErrorKind}
    (h : resultOf (tables m) i = .error kind) : kind ≠ .uncorrectableError := by
  cases i with
  | encode word =>
    rw [resultOf, encodeResult] at h
    split at h <;> cases h
    exact dataWord_error_ne_uncorrectable ‹_›
  | check rows =>
    rw [resultOf, checkResult] at h
    split at h <;> cases h
    exact codewordOperand_error_ne_uncorrectable ‹_›
  | correct rows | decode rows =>
    simp only [resultOf, correctResult, decodeResult] at h
    split at h <;> cases h
    exact correctionOfRows_error_ne_uncorrectable ‹_›
  | bitflip rows pos =>
    rw [resultOf, bitflipResult] at h
    split at h
    · cases h
      exact codewordOperand_error_ne_uncorrectable ‹_›
    · split at h <;> cases h
      exact flipIndex_error_ne_uncorrectable ‹_›

/-- The status of an instruction's response is OK or the kind its result names. -/
theorem status_responseOf_resultOf (e : Engine) (i : Instr) :
    (responseOf (resultOf e i)).status = .ok ∨
      ∃ kind, resultOf e i = .error kind ∧ (responseOf (resultOf e i)).status = .error kind := by
  cases h : resultOf e i with
  | ok r => exact .inl (resultOf_ok_status h)
  | error kind => exact .inr ⟨kind, rfl, rfl⟩

theorem status_responseTo_ne_uncorrectable (m : Nat) (r : Request) :
    (responseTo (tables m) r).status ≠ .error .uncorrectableError := by
  cases hd : decode r with
  | error x => rw [responseTo_of_decode_error hd]; nofun
  | ok i =>
    rw [responseTo_of_decode_ok hd]
    rcases status_responseOf_resultOf (tables m) i with hs | ⟨kind, herr, hs⟩ <;> rw [hs]
    · nofun
    · exact fun h => resultOf_error_ne_uncorrectable herr (Status.error.inj h)

/-- Settles O32: a non-zero syndrome is a column, so the search never fails, and nothing else raises the error. -/
theorem uncorrectableErrorIsUnreachable : Obligations.UncorrectableErrorIsUnreachable := by
  refine fun m _ => ⟨fun v _ hne => ?search, fun s v he hv => ?correct, fun s t r rest he hp hs => ?served⟩
  case search =>
    obtain ⟨j, hj, hcol⟩ := (eq_zeros_or_exists_col (length_syndrome m v)).resolve_left hne
    rw [hcol, findColumn_col hj]
    exact ⟨nofun, j, ⟨hj, rfl⟩, fun c hc => col_tables_P_injective hc.1 hj hc.2⟩
  case correct =>
    obtain ⟨c, hc⟩ := exists_correction_eq_ok m v
    exact ⟨_, exec_correct_row he hv hc, rfl⟩
  case served =>
    cases (step_request hp).symm.trans hs
    exact ⟨_, rfl, he ▸ status_responseTo_ne_uncorrectable m r⟩

end Sys2Proof.Machine
end

section
/-! O33: one flipped element (spec/42_syndrome_decoder.md R158). Its syndrome is the column of that element, so the
correction stage flips the same element back. -/

namespace Sys2Proof.Machine

theorem correction_flip_codeword {m j : Nat} {c : Vec} (h : IsCodeword m c) (hj : j < codeLength m) :
    correction (tables m) (flip c j) = .ok { vec := c, corr := .corrected, index := j } := by
  rw [correction_of_syndrome_eq_col hj (h.syndrome_flip hj), flip_flip]

/-- Settles O33: the syndrome is column `j`, which is not zero and which the search finds at `j`. -/
theorem singleErrorIsCorrected : Obligations.SingleErrorIsCorrected := by
  intro m j s c _ he hc hj
  have hlen : (flip c j).length = codeLength m := (length_flip c j).trans hc.1
  have hsyn := hc.syndrome_flip hj
  have hne := col_tables_P_ne_zeros hj
  have hcorr := correction_flip_codeword hc hj
  refine ⟨hsyn, hne, ?bitflip, ?check, exec_correct_row he hlen hcorr, exec_decode_row he hlen hcorr⟩
  case bitflip =>
    have hdiag : positionZero (j + 1) = false := beq_false_of_ne (by omega)
    rw [exec_bitflip_row he hc.1 (by omega) (by omega), hdiag]
    rfl
  case check =>
    have hflag : zeroSyndrome (tables m) (flip c j) = false := beq_false_of_ne (hsyn ▸ hne)
    rw [exec_check_row he hlen, hflag]

end Sys2Proof.Machine
end

section
/-! O34: two flipped elements (spec/42_syndrome_decoder.md R159). Their syndrome is the sum of two columns, which is a
third column, so the correction stage flips a third element and ends at another codeword. -/

namespace Sys2Proof.Machine

/-- The sum of two distinct columns is a third column. -/
theorem exists_third_col {m a b : Nat} (ha : a < codeLength m) (hb : b < codeLength m) (hab : a ≠ b) :
    ∃ t < codeLength m, t ≠ a ∧ t ≠ b ∧ xorVec (col (tables m).P a) (col (tables m).P b) = col (tables m).P t := by
  have hlenA := length_col_tables_P m a
  have hlenB := length_col_tables_P m b
  have hlen : (col (tables m).P a).length = (col (tables m).P b).length := hlenA.trans hlenB.symm
  have hcancelA := xorVec_cancel_left hlen
  have hcancelB := xorVec_cancel_left hlen.symm
  rw [xorVec_comm (col _ b) (col _ a)] at hcancelB
  rcases eq_zeros_or_exists_col ((length_xorVec _ _ hlen).trans hlenA) with hz | ⟨t, ht, hcol⟩
  · rw [hz, xorVec_comm, zeros_xorVec hlenA] at hcancelA
    exact absurd (col_tables_P_injective ha hb hcancelA) hab
  · rw [hcol] at hcancelA hcancelB
    refine ⟨t, ht, ?_, ?_, hcol⟩ <;> rintro rfl
    · rw [xorVec_self, hlenA] at hcancelA
      exact col_tables_P_ne_zeros hb hcancelA.symm
    · rw [xorVec_self, hlenB] at hcancelB
      exact col_tables_P_ne_zeros ha hcancelB.symm

theorem IsCodeword.syndrome_flip_flip {m a b : Nat} {c : Vec} (h : IsCodeword m c) (ha : a < codeLength m)
    (hb : b < codeLength m) :
    syndrome (tables m) (flip (flip c a) b) = xorVec (col (tables m).P a) (col (tables m).P b) := by
  have hb : b < (flip c a).length := by rwa [length_flip, h.1]
  rw [syndrome_flip_eq_xorVec _ hb, h.syndrome_flip ha]

/-- Flipping three distinct elements changes those three. -/
theorem getD_flip_flip_flip_ne_iff {v : Vec} {a b t i : Nat} (hi : i < v.length) (hab : a ≠ b) (hta : t ≠ a)
    (htb : t ≠ b) :
    (flip (flip (flip v a) b) t).getD i false ≠ v.getD i false ↔ i = a ∨ i = b ∨ i = t := by
  by_cases hit : i = t
  · subst hit
    rw [getD_flip_self (by simpa using hi), getD_flip_of_ne htb, getD_flip_of_ne hta]
    simp
  rw [getD_flip_of_ne hit]
  by_cases hib : i = b
  · subst hib
    rw [getD_flip_self (by simpa using hi), getD_flip_of_ne hab.symm]
    simp
  rw [getD_flip_of_ne hib]
  by_cases hia : i = a
  · subst hia
    rw [getD_flip_self hi]
    simp
  · rw [getD_flip_of_ne hia]
    simp [hit, hib, hia]

/-- Settles O34: the third flip ends at a codeword other than the sent one, and codewords with one data part are
equal. -/
theorem doubleErrorIsMiscorrected : Obligations.DoubleErrorIsMiscorrected := by
  intro m a b s c _ he hc ha hb hab
  have hlen : (flip (flip c a) b).length = codeLength m := by rw [length_flip, length_flip, hc.1]
  have hsyn := hc.syndrome_flip_flip ha hb
  obtain ⟨t, ht, hta, htb, hcol⟩ := exists_third_col ha hb hab
  have hsynt := hsyn.trans hcol
  have hcorr := correction_of_syndrome_eq_col ht hsynt
  have hcode := isCodeword_flip_of_syndrome_eq_col hlen ht hsynt
  have hdiff : ∀ i, i < codeLength m →
      ((flip (flip (flip c a) b) t).getD i false ≠ c.getD i false ↔ i = a ∨ i = b ∨ i = t) :=
    fun i hi => getD_flip_flip_flip_ne_iff (hc.1 ▸ hi) hab hta htb
  have hne : flip (flip (flip c a) b) t ≠ c := fun h => (hdiff a ha).2 (.inl rfl) (by rw [h])
  exact ⟨hsyn, hsynt ▸ col_tables_P_ne_zeros ht, t, ht, hta, htb, hsynt, exec_correct_row he hlen hcorr, hcode, hne,
    hdiff, exec_decode_row he hlen hcorr, fun h => hne (hcode.eq_of_take_eq hc h)⟩

end Sys2Proof.Machine
end

section
/-! O35: correction of any vector of length `n` (spec/42_syndrome_decoder.md R160). It ends at a codeword, and a
codeword is answered as it is. -/

namespace Sys2Proof.Machine

theorem exists_correction_isCodeword {m : Nat} {v : Vec} (hv : v.length = codeLength m) :
    ∃ c, correction (tables m) v = .ok c ∧ IsCodeword m c.vec ∧
      ∃ j, ∀ i, i ≠ j → c.vec.getD i false = v.getD i false := by
  rcases eq_zeros_or_exists_col (length_syndrome m v) with h | ⟨j, hj, h⟩
  · exact ⟨_, correction_of_syndrome_eq_zeros h, ⟨hv, h⟩, 0, fun _ _ => rfl⟩
  · exact ⟨_, correction_of_syndrome_eq_col hj h, isCodeword_flip_of_syndrome_eq_col hv hj h, j,
      fun _ => getD_flip_of_ne⟩

/-- Settles O35: the first correction ends at a codeword, on which the second finds nothing to correct. -/
theorem correctionYieldsCodewords : Obligations.CorrectionYieldsCodewords := by
  intro m s s' v _ he he' hv
  obtain ⟨c, hcorr, hcode, hchange⟩ := exists_correction_isCodeword hv
  exact ⟨c.vec, c.corr, c.index, exec_correct_row he hv hcorr, hcode.2, exec_correct_codeword he' hcode,
    exec_check_codeword he' hcode, hcode.1, hchange⟩

end Sys2Proof.Machine
end

section
/-! O39: position 0 is position 1 with the diagnostic (spec/43_bitflip.md R191). -/

namespace Sys2Proof.Machine

/-- Settles O39: both positions are in `0..n`, and both flip the first element, since the index `pos - 1` is cut off
at 0. -/
theorem positionZeroIsPositionOneWithDiagnostic : Obligations.PositionZeroIsPositionOneWithDiagnostic := by
  intro m s v hm he hv
  have hn : 1 ≤ codeLength m := codeLength_pos hm
  have hzero := exec_bitflip_row (pos := 0) he hv (by omega) (by omega)
  have hone := exec_bitflip_row (pos := 1) he hv (by omega) (by omega)
  exact ⟨flip v 0, hzero, hone⟩

end Sys2Proof.Machine
end

section
/-! O18: a reserved descriptor (spec/60_exceptions.md R207). The five descriptors of the table are legal, and the decoder
rejects every other one whatever the operands. -/

namespace Sys2Proof.Machine

theorem legalDescriptor_of_table {desc : Desc}
    (h : desc = 0x01#8 ∨ desc = 0x02#8 ∨ desc = 0x03#8 ∨ desc = 0x04#8 ∨ desc = 0x05#8) : LegalDescriptor desc := by
  rcases h with rfl | rfl | rfl | rfl | rfl <;> simp [LegalDescriptor]

theorem decode_of_not_legalDescriptor {r : Request} (h : ¬ LegalDescriptor r.desc) : ∃ x, decode r = .error x := by
  obtain ⟨x, hx⟩ := (decode_descriptor_cases r.desc).resolve_left (mt legalDescriptor_of_table h)
  exact ⟨x, hx r.word r.rows r.pos⟩

/-- Settles O18: the decoder rejects the request, so the step answers `IllegalOperation` with defaults. -/
theorem reservedDescriptorIsIllegalOperation : Obligations.ReservedDescriptorIsIllegalOperation := by
  intro s r rest hp hlegal
  obtain ⟨x, hx⟩ := decode_of_not_legalDescriptor hlegal
  have hresp : responseTo s.engine r = errorResponse .illegalOperation := responseTo_of_decode_error hx s.engine
  exact ⟨(step_request hp).trans (congrArg (answers _) hresp), rfl⟩

end Sys2Proof.Machine
end

section
/-! O41: an error response carries its kind alone (spec/60_exceptions.md R202). A result that is no error has status OK,
so a response with an error status is the `errorResponse` of its kind. -/

namespace Sys2Proof.Machine

/-- An error status comes from a reserved descriptor or is the kind the instruction's result names. -/
theorem status_responseTo_error {e : Engine} {r : Request} {kind : ErrorKind}
    (h : (responseTo e r).status = .error kind) :
    (∃ x, decode r = .error x ∧ kind = .illegalOperation) ∨ ∃ i, decode r = .ok i ∧ resultOf e i = .error kind := by
  cases hd : decode r with
  | error x =>
    rw [responseTo_of_decode_error hd] at h
    cases h
    exact .inl ⟨x, rfl, rfl⟩
  | ok i =>
    rw [responseTo_of_decode_ok hd] at h
    rcases status_responseOf_resultOf e i with hok | ⟨kind', herr, hstatus⟩
    · cases hok.symm.trans h
    · cases hstatus.symm.trans h
      exact .inr ⟨i, rfl, herr⟩

theorem responseTo_eq_errorResponse {e : Engine} {r : Request} {kind : ErrorKind}
    (h : (responseTo e r).status = .error kind) : responseTo e r = errorResponse kind := by
  rcases status_responseTo_error h with ⟨x, hd, rfl⟩ | ⟨i, hd, herr⟩
  · exact responseTo_of_decode_error hd e
  · rw [responseTo_of_decode_ok hd, herr, responseOf]

/-- Settles O41: the step adds `responseTo` and removes the request, and that response is the `errorResponse` of an
error status. -/
theorem errorResponseHasNoPartialEffect : Obligations.ErrorResponseHasNoPartialEffect := by
  intro s t r rest hp hs
  cases (step_request hp).symm.trans hs
  exact ⟨responseTo s.engine r, rfl, fun _ => responseTo_eq_errorResponse⟩

end Sys2Proof.Machine
end

section
/-! O1: `InvalidParameter` is an elaboration error (spec/60_exceptions.md R205). Construct alone raises it: the operand
checks and the correction stage name the kinds of R200 that they raise, on any engine value. -/

namespace Sys2Proof.Machine

theorem flipIndex_error {e : Engine} {pos : Int} {kind : ErrorKind} (h : flipIndex e pos = .error kind) :
    kind = .positionOutOfRange ∨ kind = .negativePosition := by
  rcases flipIndex_cases e pos with ⟨-, hf⟩ | ⟨-, -, hf⟩ | ⟨-, -, hf⟩ <;> cases hf.symm.trans h
  · exact .inl rfl
  · exact .inr rfl

theorem correction_error {e : Engine} {v : Vec} {kind : ErrorKind} (h : correction e v = .error kind) :
    kind = .uncorrectableError := by
  rcases correction_cases e v with ⟨-, hc⟩ | ⟨-, j, -, hc⟩ | ⟨-, -, hc⟩ <;> cases hc.symm.trans h
  rfl

theorem correctionOfRows_error {e : Engine} {rows : List Vec} {kind : ErrorKind}
    (h : correctionOfRows e rows = .error kind) :
    kind = .multiRowInput ∨ kind = .invalidCodewordLength ∨ kind = .uncorrectableError := by
  rw [correctionOfRows] at h
  split at h
  · next hop =>
    cases h
    exact (codewordOperand_error hop).imp_right .inl
  · exact .inr (.inr (correction_error h))

theorem resultOf_error_ne_invalidParameter {e : Engine} {i : Instr} {kind : ErrorKind}
    (h : resultOf e i = .error kind) : kind ≠ .invalidParameter := by
  cases i with
  | encode word =>
    rw [resultOf, encodeResult] at h
    split at h <;> cases h
    rcases dataWord_error ‹_› with rfl | rfl <;> decide
  | check rows =>
    rw [resultOf, checkResult] at h
    split at h <;> cases h
    rcases codewordOperand_error ‹_› with rfl | rfl <;> decide
  | correct rows | decode rows =>
    simp only [resultOf, correctResult, decodeResult] at h
    split at h <;> cases h
    rcases correctionOfRows_error ‹_› with rfl | rfl | rfl <;> decide
  | bitflip rows pos =>
    rw [resultOf, bitflipResult] at h
    split at h
    · cases h
      rcases codewordOperand_error ‹_› with rfl | rfl <;> decide
    · split at h <;> cases h
      rcases flipIndex_error ‹_› with rfl | rfl <;> decide

theorem status_responseTo_ne_invalidParameter (e : Engine) (r : Request) :
    (responseTo e r).status ≠ .error .invalidParameter := by
  intro h
  rcases status_responseTo_error h with ⟨x, -, hkind⟩ | ⟨i, -, herr⟩
  · cases hkind
  · exact resultOf_error_ne_invalidParameter herr rfl

theorem elaborate_of_construct_error {M : Int} {kind : ErrorKind} (h : construct M = .error kind) :
    State.elaborate M = .error kind := by
  rw [State.elaborate, h, Except.map]

theorem elaborate_of_construct_ok {M : Int} {e : Engine} (h : construct M = .ok e) :
    State.elaborate M = .ok (.afterReset e) := by
  rw [State.elaborate, h, Except.map]

theorem edge_reset {inp : PortIn} (h : inp.rst = true) (p : PortParams) (ch : PortChoice) (s : State) :
    edge p ch inp s = .next (applyReset s) :=
  if_pos h

/-- Settles O1: elaboration fails exactly as Construct does, no instruction raises the kind, and reset leaves no
response. -/
theorem invalidParameterOnlyAtElaboration : Obligations.InvalidParameterOnlyAtElaboration := by
  refine ⟨fun M => ?elaboration, fun s t r rest hp hs => ?served, fun p ch inp s t hrst hs a ha => ?reset⟩
  case elaboration =>
    rcases construct_cases M with ⟨hM, hc⟩ | ⟨hM, hc⟩
    · exact ⟨fun _ => ⟨hc, elaborate_of_construct_error hc⟩, fun hM' => by omega⟩
    · exact ⟨fun hM' => by omega, fun _ => ⟨_, _, hc, elaborate_of_construct_ok hc, State.afterReset_engine _⟩⟩
  case served =>
    cases (step_request hp).symm.trans hs
    exact ⟨_, rfl, status_responseTo_ne_invalidParameter s.engine r⟩
  case reset =>
    cases (edge_reset hrst p ch s).symm.trans hs
    rw [applyReset_responses] at ha
    cases ha

end Sys2Proof.Machine
end

section
/-! O27, O28: CHECK (spec/42_syndrome_decoder.md R154). The syndrome is zero iff the received parity bits are the
recomputed ones, that is iff the vector is the codeword of its own data part. -/

namespace Sys2Proof.Machine

theorem syndrome_eq_zeros_iff {m : Nat} {v : Vec} (hv : v.length = codeLength m) :
    syndrome (tables m) v = zeros m ↔ ∀ i, i < m → v.getD (dataLength m + i) false = parityOf m v i := by
  refine ⟨fun h i hi => IsCodeword.getD_parity ⟨hv, h⟩ hi, fun h => ?_⟩
  refine syndrome_eq_zeros fun i hi => ?_
  rw [← getD_syndrome hi, getD_syndrome_eq_xor_parityOf hi hv, h i hi, Bool.xor_self]

theorem zeroSyndrome_iff (m : Nat) (v : Vec) :
    zeroSyndrome (tables m) v = true ↔ syndrome (tables m) v = zeros m :=
  beq_iff_eq

/-- Settles O27: the flag is whether the syndrome is zero, which compares the parity bits. -/
theorem checkAnswersParityAgreement : Obligations.CheckAnswersParityAgreement := by
  intro m s v _ he hv
  rw [exec_check_row he hv]
  refine ⟨fun hagree => ?_, fun ⟨i, hi, hne⟩ => ?_⟩
  · rw [(zeroSyndrome_iff m v).2 ((syndrome_eq_zeros_iff hv).2 hagree)]
  · have hflag : ¬ zeroSyndrome (tables m) v = true :=
      fun h => hne ((syndrome_eq_zeros_iff hv).1 ((zeroSyndrome_iff m v).1 h) i hi)
    rw [Bool.eq_false_of_not_eq_true hflag]

theorem answers_inj {s : State} {r r' : Response} : answers s r = answers s r' ↔ r = r' := by
  simp [answers]

theorem syndrome_eq_zeros_iff_eq_codewordOf {m : Nat} {v : Vec} (hv : v.length = codeLength m) :
    syndrome (tables m) v = zeros m ↔ v = codewordOf m (v.take (dataLength m)) := by
  refine ⟨fun h => IsCodeword.eq_codewordOf_take ⟨hv, h⟩, fun h => ?_⟩
  rw [h]
  exact syndrome_codewordOf (length_take_dataLength hv)

/-- Settles O28: the flag is whether the syndrome is zero, and the vectors of zero syndrome are the codewords of their
data parts. -/
theorem checkAcceptsExactlyTheCode : Obligations.CheckAcceptsExactlyTheCode := by
  intro m s v _ he hv
  calc exec (.check [v]) s = answers s { flag := true }
      ↔ zeroSyndrome (tables m) v = true := by rw [exec_check_row he hv, answers_inj]; simp
    _ ↔ syndrome (tables m) v = zeros m := zeroSyndrome_iff m v
    _ ↔ v = codewordOf m (v.take (dataLength m)) := syndrome_eq_zeros_iff_eq_codewordOf hv

end Sys2Proof.Machine
end

section
/-! O29, O30, O31: the column search, and the element that CORRECT and DECODE flip (spec/42_syndrome_decoder.md R153,
R155, R157). A non-zero syndrome is the column at the systematic index of its value. -/

namespace Sys2Proof.Machine

theorem findColumn_of_ne_zeros {m : Nat} {v : Vec} (hlen : v.length = m) (hv : v ≠ zeros m) :
    findColumn (tables m) v = some (sysIndex (tables m) (packBits v)) := by
  obtain ⟨hlt, hcol⟩ := col_tables_P_sysIndex hlen hv
  calc findColumn (tables m) v
      = findColumn (tables m) (col (tables m).P (sysIndex (tables m) (packBits v))) := by rw [hcol]
    _ = some (sysIndex (tables m) (packBits v)) := findColumn_col hlt

theorem col_eq_iff_findColumn_eq_some {m c : Nat} {v : Vec} (hc : c < codeLength m) :
    col (tables m).P c = v ↔ findColumn (tables m) v = some c :=
  ⟨fun h => h ▸ findColumn_col hc, fun h => (findColumn_some h).2⟩

theorem findColumn_zeros (m : Nat) : findColumn (tables m) (zeros m) = none := by
  refine Option.eq_none_iff_forall_ne_some.2 fun j hj => ?_
  obtain ⟨hlt, hcol⟩ := findColumn_some hj
  exact col_tables_P_ne_zeros hlt hcol

/-- Settles O29: the column at the systematic index is the vector, and no column is zero. -/
theorem columnSearchFindsTheSystematicIndex : Obligations.ColumnSearchFindsTheSystematicIndex :=
  fun m _ _ hlen => ⟨fun hne => ⟨findColumn_of_ne_zeros hlen hne, fun _ => col_eq_iff_findColumn_eq_some⟩,
    fun hz => hz ▸ findColumn_zeros m⟩

theorem flip_eq_set {v : Vec} {j : Nat} (hj : j < v.length) : flip v j = v.set j (!v.getD j false) := by
  rw [flip, List.modify_eq_set, List.getElem?_eq_getElem hj, List.getD_eq_getElem _ _ hj, Option.getD_some,
    Bool.xor_true]

/-- On a non-zero syndrome the correction stage complements the element at the systematic index of its value. -/
theorem correction_of_syndrome_ne_zeros {m : Nat} {v : Vec} (hv : v.length = codeLength m)
    (hne : syndrome (tables m) v ≠ zeros m) :
    ∃ j, j < codeLength m ∧ j = sysIndex (tables m) (packBits (syndrome (tables m) v)) ∧
      correction (tables m) v = .ok { vec := v.set j (!v.getD j false), corr := .corrected, index := j } := by
  obtain ⟨hlt, hcol⟩ := col_tables_P_sysIndex (length_syndrome m v) hne
  refine ⟨_, hlt, rfl, ?_⟩
  rw [correction_of_syndrome_eq_col hlt hcol.symm, flip_eq_set (hv ▸ hlt)]

/-- Settles O30: CORRECT answers what the correction stage gives. -/
theorem correctAnswersTheFlippedElement : Obligations.CorrectAnswersTheFlippedElement := by
  intro m s v _ he hv
  refine ⟨fun hz => exec_correct_row he hv (correction_of_syndrome_eq_zeros hz), fun hne => ?_⟩
  obtain ⟨j, hlt, hj, hcorr⟩ := correction_of_syndrome_ne_zeros hv hne
  exact ⟨j, hlt, hj, exec_correct_row he hv hcorr⟩

/-- Settles O31: DECODE answers the data part of what the correction stage gives. -/
theorem decodeAnswersTheFirstKBits : Obligations.DecodeAnswersTheFirstKBits := by
  intro m s v _ he hv
  refine ⟨fun hz => exec_decode_row he hv (correction_of_syndrome_eq_zeros hz), fun hne => ?_⟩
  obtain ⟨j, hlt, hj, hcorr⟩ := correction_of_syndrome_ne_zeros hv hne
  exact ⟨j, hlt, hj, exec_decode_row he hv hcorr⟩

end Sys2Proof.Machine
end

section
/-! O37, O38: BITFLIP's positions (spec/43_bitflip.md R190, R192). -/

namespace Sys2Proof.Machine

/-- Settles O37: the flipped index is `pos - 1`, cut off at 0. -/
theorem bitflipFlipsOneElement : Obligations.BitflipFlipsOneElement := by
  intro m s v pos hm he hv hlo hhi
  have hn : 1 ≤ codeLength m := codeLength_pos hm
  refine ⟨flip v (pos.toNat - 1), pos.toNat - 1, by omega, by omega, by omega, exec_bitflip_row he hv hlo hhi,
    by rw [length_flip, hv], fun i hi => ?_⟩
  simp only [getD_flip, hv, hi, and_true]

theorem flipIndex_of_gt {e : Engine} {pos : Int} (h : pos > e.n) : flipIndex e pos = .error .positionOutOfRange :=
  if_pos h

theorem flipIndex_of_neg {e : Engine} {pos : Int} (h : pos < 0) : flipIndex e pos = .error .negativePosition := by
  rw [flipIndex, if_neg (by omega), if_pos h]

theorem exec_bitflip_row_error {m : Nat} {s : State} {v : Vec} {pos : Int} {kind : ErrorKind} (he : s.engine = tables m)
    (hv : v.length = codeLength m) (h : flipIndex (tables m) pos = .error kind) :
    exec (.bitflip [v] pos) s = answers s { status := .error kind } :=
  exec_of_resultOf (x := .error _) he (by
    rw [resultOf, bitflipResult, codewordOperand_row hv]
    simp only [h])

/-- Settles O38: the operand passes, and the position alone is judged. -/
theorem bitflipPositionErrors : Obligations.BitflipPositionErrors :=
  fun _ _ _ _ _ he hv => ⟨fun h => exec_bitflip_row_error he hv (flipIndex_of_gt h),
    fun h => exec_bitflip_row_error he hv (flipIndex_of_neg h)⟩

end Sys2Proof.Machine
end

section
/-! O22: ENCODE's errors (spec/41_encoder.md R130, spec/60_exceptions.md R204). -/

namespace Sys2Proof.Machine

theorem dataWord_of_length_ne {e : Engine} {word : List Char8} (h : word.length ≠ e.k) :
    dataWord e word = .error .invalidWordLength :=
  if_pos h

theorem dataWord_of_bad_char {e : Engine} {word : List Char8} (hlen : word.length = e.k)
    (h : ∃ c ∈ word, c ≠ 0x30#8 ∧ c ≠ 0x31#8) : dataWord e word = .error .invalidWordAlphabet := by
  obtain ⟨c, hc, h0, h1⟩ := h
  have hall : ¬ word.all isWordChar = true := fun hall => by
    have hchar := List.all_eq_true.1 hall c hc
    simp [isWordChar, h0, h1] at hchar
  rw [dataWord, if_neg (not_not.2 hlen), if_neg hall]

theorem exec_encode_error {m : Nat} {s : State} {word : List Char8} {kind : ErrorKind} (he : s.engine = tables m)
    (h : dataWord (tables m) word = .error kind) : exec (.encode word) s = answers s { status := .error kind } :=
  exec_of_resultOf (x := .error _) he (by rw [resultOf, encodeResult, h])

/-- Settles O22: the length is judged first, then every character. -/
theorem encodeRefusesBadWords : Obligations.EncodeRefusesBadWords :=
  fun _ _ _ _ he => ⟨fun hlen => exec_encode_error he (dataWord_of_length_ne hlen),
    fun hlen hbad => exec_encode_error he (dataWord_of_bad_char hlen hbad)⟩

end Sys2Proof.Machine
end

section
/-! O45, O42, O19, O17, O40: one step serves the oldest request (spec/20_memory.md R59, R60,
spec/70_reset_and_hazards.md R236), so a run serves the waiting ones in order. -/

namespace Sys2Proof.Machine

theorem step_of_pending_nil {s : State} (h : s.pending = []) : step s = .next s := by
  rw [step, takeRequest, h]

/-- Settles O19: no request is there to take. -/
theorem quiescentStepChangesNothing : Obligations.QuiescentStepChangesNothing :=
  fun _ => step_of_pending_nil

theorem step_of_pending_meaningless {s : State} {rest : List Accepted} (h : s.pending = .meaningless :: rest) :
    step s = .next (answerMeaningless { s with pending := rest }) := by
  rw [step, takeRequest_cons h]

theorem step_of_decode_ok {s : State} {r : Request} {rest : List Accepted} {i : Instr}
    (h : s.pending = .request r :: rest) (hd : decode r = .ok i) : step s = exec i { s with pending := rest } := by
  rw [step, takeRequest_cons h]
  simp only [hd]

theorem table_of_legalDescriptor {desc : Desc} (h : LegalDescriptor desc) :
    desc = 0x01#8 ∨ desc = 0x02#8 ∨ desc = 0x03#8 ∨ desc = 0x04#8 ∨ desc = 0x05#8 := by
  obtain ⟨hrsv, hlo, hhi⟩ := h
  simp only [← BitVec.toNat_inj, BitVec.toNat_ofNat]
  omega

theorem decode_of_legalDescriptor {r : Request} (h : LegalDescriptor r.desc) : ∃ i, decode r = .ok i := by
  obtain ⟨desc, word, rows, pos⟩ := r
  rcases table_of_legalDescriptor h with rfl | rfl | rfl | rfl | rfl
  · exact ⟨_, decode_0x01 word rows pos⟩
  · exact ⟨_, decode_0x02 word rows pos⟩
  · exact ⟨_, decode_0x03 word rows pos⟩
  · exact ⟨_, decode_0x04 word rows pos⟩
  · exact ⟨_, decode_0x05 word rows pos⟩

/-- Settles O17: the step takes the head, and the five legal descriptors are those of the table. -/
theorem stepRunsTheDecodedInstruction : Obligations.StepRunsTheDecodedInstruction :=
  fun _ _ _ hp => ⟨fun _ => step_of_decode_ok hp, decode_of_legalDescriptor⟩

/-- Settles O40: every instruction answers its result, which writes `responses` alone. -/
theorem instructionOnlyAddsOneResponse : Obligations.InstructionOnlyAddsOneResponse :=
  fun i s => ⟨_, exec_eq_answer i s, ⟨_, State.answer_responses ..⟩, rfl, rfl, rfl, rfl, rfl, rfl⟩

/-- Settles O42, by what stands at the head of the queue. -/
theorem everyRequestIsAnsweredOnce : Obligations.EveryRequestIsAnsweredOnce := by
  intro s
  cases hp : s.pending with
  | nil => exact ⟨s, step_of_pending_nil hp, nofun⟩
  | cons a rest =>
    cases a with
    | meaningless =>
      refine ⟨_, step_of_pending_meaningless hp, fun _ _ hcons => ?_⟩
      cases hcons
      exact ⟨answerMeaningless_pending _, _, answerMeaningless_responses _⟩
    | request r =>
      refine ⟨_, step_request hp, fun _ _ hcons => ?_⟩
      cases hcons
      exact ⟨rfl, _, rfl⟩

theorem run_succ_of_step {s t : State} (h : step s = .next t) (k : Nat) : core.run (k + 1) s = core.run k t := by
  have hcore : core.step s = .next t := h
  simp only [Host.Core.run, hcore]

/-- A run over waiting requests adds their responses in order, by induction on the requests. -/
theorem run_requests (rs : List Request) (rest : List Accepted) (s : State)
    (h : s.pending = rs.map .request ++ rest) :
    core.run rs.length s =
      .next { s with pending := rest, responses := s.responses ++ rs.map (responseTo s.engine) } := by
  induction rs generalizing s with
  | nil =>
    have hs : { s with pending := rest, responses := s.responses ++ [] } = s := by
      rw [List.append_nil, ← show s.pending = rest from h]
    exact congrArg _ hs.symm
  | cons r rs ih =>
    rw [List.length_cons, run_succ_of_step (step_request h), ih _ rfl, List.map_cons, List.append_assoc]
    rfl

/-- Settles O45: the function is `responseTo`. -/
theorem responsesComeInAcceptanceOrder : Obligations.ResponsesComeInAcceptanceOrder :=
  ⟨responseTo, run_requests⟩

end Sys2Proof.Machine
end

section
/-! O15, O16: the decoder and the encoder (spec/30_encoding.md R72, R73). -/

namespace Sys2Proof.Machine

theorem decode_of_rsvField_ne_zero {r : Request} (h : rsvField r.desc ≠ 0b00000#5) :
    decode r = .error .reservedField :=
  if_pos h

/-- Settles O15, descriptor by descriptor. -/
theorem descriptorsDecodeAsTheTableSays : Obligations.DescriptorsDecodeAsTheTableSays :=
  fun word rows pos => ⟨decode_0x01 word rows pos, decode_0x02 word rows pos, decode_0x03 word rows pos,
    decode_0x04 word rows pos, decode_0x05 word rows pos,
    decode_of_rsvField_ne_zero (show rsvField 0b00001001#8 ≠ 0b00000#5 by decide)⟩

theorem decode_encode (i : Instr) : decode (encode i) = .ok i := by
  cases i with
  | encode word => exact (Laws.RoundTrip.encode word).1
  | check rows => exact (Laws.RoundTrip.check rows).1
  | correct rows => exact (Laws.RoundTrip.correct rows).1
  | decode rows => exact (Laws.RoundTrip.decode rows).1
  | bitflip rows pos => exact (Laws.RoundTrip.bitflip rows pos).1

/-- A request that decodes has a descriptor of the table. -/
theorem legalDescriptor_of_decode_ok {r : Request} {i : Instr} (h : decode r = .ok i) : LegalDescriptor r.desc := by
  by_contra hlegal
  obtain ⟨x, hx⟩ := decode_of_not_legalDescriptor hlegal
  cases hx.symm.trans h

theorem desc_encode_of_decode_ok {r : Request} {i : Instr} (h : decode r = .ok i) : (encode i).desc = r.desc := by
  have hlegal := legalDescriptor_of_decode_ok h
  obtain ⟨desc, word, rows, pos⟩ := r
  rcases table_of_legalDescriptor hlegal with rfl | rfl | rfl | rfl | rfl
  · cases (decode_0x01 word rows pos).symm.trans h; rfl
  · cases (decode_0x02 word rows pos).symm.trans h; rfl
  · cases (decode_0x03 word rows pos).symm.trans h; rfl
  · cases (decode_0x04 word rows pos).symm.trans h; rfl
  · cases (decode_0x05 word rows pos).symm.trans h; rfl

/-- Settles O16: the round trip of each instruction, and only descriptors of the table decode. -/
theorem decodeInvertsEncode : Obligations.DecodeInvertsEncode :=
  ⟨fun i => ⟨decode_encode i, legalDescriptor_of_decode_ok (decode_encode i)⟩, fun _ _ => desc_encode_of_decode_ok⟩

end Sys2Proof.Machine
end

section
/-! O47: every response is one the spec allows (spec/30_encoding.md R78), and so a step keeps the invariant. -/

namespace Sys2Proof.Machine

theorem dataLength_le_codeLength (m : Nat) : dataLength m ≤ codeLength m := by
  have hn := dataLength_add m
  omega

/-- What the correction stage gives on an operand it accepts. -/
theorem correctionOfRows_ok {e : Engine} {rows : List Vec} {c : Correction} (h : correctionOfRows e rows = .ok c) :
    c.vec.length = e.n ∧ (c.corr = .valid ∧ c.index = 0 ∨ c.corr = .corrected ∧ c.index < e.n) := by
  rw [correctionOfRows] at h
  split at h
  · cases h
  · next v hop =>
    obtain ⟨hlen, -⟩ := codewordOperand_ok hop
    rcases correction_cases e v with ⟨-, hc⟩ | ⟨-, j, hj, hc⟩ | ⟨-, -, hc⟩ <;> cases hc.symm.trans h
    · exact ⟨hlen, .inl ⟨rfl, rfl⟩⟩
    · exact ⟨(length_flip v j).trans hlen, .inr ⟨rfl, (findColumn_some hj).1⟩⟩

/-- A response of CORRECT or DECODE: a codeword's or a data word's length, with the outcome of the correction stage. -/
theorem allowed_of_correction {e : Engine} {c : Correction} {v : Vec}
    (hc : c.corr = .valid ∧ c.index = 0 ∨ c.corr = .corrected ∧ c.index < e.n) (hv : v.length = e.n ∨ v.length = e.k) :
    Response.Allowed e { vec := v, corr := c.corr, index := c.index } := by
  obtain ⟨u, corr, index⟩ := c
  rcases hc with ⟨hcorr, hindex⟩ | ⟨hcorr, hindex⟩ <;> cases hcorr
  · cases hindex
    exact ⟨rfl, hv⟩
  · exact ⟨rfl, hindex, hv⟩

theorem resultOf_ok_allowed {m : Nat} {i : Instr} {r : Response} (h : resultOf (tables m) i = .ok r) :
    Response.Allowed (tables m) r := by
  cases i with
  | encode word =>
    rw [resultOf, encodeResult] at h
    split at h <;> cases h
    exact .inr ⟨rfl, length_vecMul ..⟩
  | check rows =>
    rw [resultOf, checkResult] at h
    split at h <;> cases h
    exact .inl rfl
  | correct rows =>
    rw [resultOf, correctResult] at h
    split at h <;> cases h
    obtain ⟨hlen, hc⟩ := correctionOfRows_ok ‹_›
    exact allowed_of_correction hc (.inl hlen)
  | decode rows =>
    rw [resultOf, decodeResult] at h
    split at h <;> cases h
    obtain ⟨hlen, hc⟩ := correctionOfRows_ok ‹_›
    exact allowed_of_correction hc (.inr (length_take_dataLength hlen))
  | bitflip rows pos =>
    rw [resultOf, bitflipResult] at h
    split at h
    · cases h
    · next v hop =>
      split at h <;> cases h
      exact .inr ⟨rfl, (length_flip v _).trans (codewordOperand_ok hop).1⟩

theorem responseTo_allowed (m : Nat) (r : Request) : Response.Allowed (tables m) (responseTo (tables m) r) := by
  cases hs : (responseTo (tables m) r).status with
  | error kind =>
    rw [responseTo_eq_errorResponse hs]
    refine ⟨rfl, ?_, ?_⟩ <;> rintro rfl
    · exact status_responseTo_ne_invalidParameter _ r hs
    · exact status_responseTo_ne_uncorrectable m r hs
  | ok =>
    cases hd : decode r with
    | error x => rw [responseTo_of_decode_error hd] at hs; cases hs
    | ok i =>
      rw [responseTo_of_decode_ok hd] at hs ⊢
      cases hres : resultOf (tables m) i with
      | error kind => rw [hres] at hs; cases hs
      | ok a => exact resultOf_ok_allowed hres

/-- Answering the oldest request with an allowed response keeps the invariant. -/
theorem State.Inv.answer_head {s : State} {a : Accepted} {rest : List Accepted} {r : Response} (h : s.Inv)
    (hp : s.pending = a :: rest) (hr : Response.Allowed s.engine r) :
    State.Inv { s with pending := rest, responses := s.responses ++ [r] } where
  constructed := h.constructed
  meaningful := fun b hb => h.meaningful b (hp ▸ List.mem_cons_of_mem a hb)
  handshake := h.handshake
  allowed := List.forall_mem_append.2 ⟨h.allowed, List.forall_mem_singleton.2 hr⟩

theorem State.Inv.step {s t : State} (h : s.Inv) (hs : step s = .next t) : t.Inv := by
  cases hp : s.pending with
  | nil =>
    cases (step_of_pending_nil hp).symm.trans hs
    exact h
  | cons a rest =>
    cases a with
    | meaningless => exact absurd rfl (h.meaningful .meaningless (hp ▸ List.mem_cons_self))
    | request r =>
      cases (step_request hp).symm.trans hs
      obtain ⟨m, -, he⟩ := h.constructed
      exact h.answer_head hp (he ▸ responseTo_allowed m r)

/-- Settles O47: the step answers the head of the queue with `responseTo`. -/
theorem stepKeepsInvariant : Obligations.StepKeepsInvariant :=
  fun _ _ => State.Inv.step

end Sys2Proof.Machine
end

section
/-! O46, O48: the invariant at elaboration and over an edge of the port (spec/30_encoding.md R81,
spec/70_reset_and_hazards.md R230, R234). -/

namespace Sys2Proof.Machine

theorem State.inv_afterReset {m : Nat} (hm : 1 ≤ m) : (State.afterReset (tables m)).Inv where
  constructed := ⟨m, hm, rfl⟩
  meaningful := nofun
  handshake := rfl
  allowed := nofun

/-- Settles O46: an elaborated block holds the tables of its `M`, and nothing else. -/
theorem invariantHoldsAtElaboration : Obligations.InvariantHoldsAtElaboration := by
  refine ⟨fun M s h => ?_, State.inv_afterReset (by decide), rfl⟩
  obtain ⟨hM, rfl⟩ := State.elaborate_ok h
  exact State.inv_afterReset (by omega)

theorem State.Inv.applyReset {s : State} (h : s.Inv) : (applyReset s).Inv where
  constructed := h.constructed
  meaningful := nofun
  handshake := rfl
  allowed := nofun

theorem State.Inv.takeResponse {s : State} (h : s.Inv) (inp : PortIn) : (takeResponse inp s).Inv := by
  obtain ⟨hconstructed, hmeaningful, hhandshake, hallowed⟩ := h
  unfold Machine.takeResponse
  split
  · exact ⟨hconstructed, hmeaningful, hhandshake, fun r hr => hallowed r (List.mem_of_mem_tail hr)⟩
  · exact ⟨hconstructed, hmeaningful, hhandshake, hallowed⟩

theorem State.Inv.takeOffer {p : PortParams} {inp : PortIn} {s t : State} (h : s.Inv)
    (ht : takeOffer p inp s = .next t) : t.Inv := by
  obtain ⟨hconstructed, hmeaningful, hhandshake, hallowed⟩ := h
  rcases takeOffer_cases p inp s with
    ⟨-, ho⟩ | ⟨-, -, ho⟩ | ⟨-, -, hb, -⟩ | ⟨-, -, -, -, ho⟩ | ⟨-, -, -, -, ho⟩
  · cases ho.symm.trans ht
    exact ⟨hconstructed, hmeaningful, hhandshake, hallowed⟩
  · cases ho.symm.trans ht
    exact ⟨hconstructed, hmeaningful, hhandshake, hallowed⟩
  · cases hhandshake.symm.trans hb
  · cases ho.symm.trans ht
    exact ⟨hconstructed, List.forall_mem_append.2 ⟨hmeaningful, List.forall_mem_singleton.2 nofun⟩, hhandshake,
      hallowed⟩
  · cases ho.symm.trans ht

theorem State.Inv.serveEdge {ch : PortChoice} {s t : State} (h : s.Inv) (ht : serveEdge ch s = .next t) : t.Inv := by
  rcases serveEdge_cases ch s with ⟨-, he⟩ | ⟨-, u, hu, he⟩ <;> cases he.symm.trans ht
  · exact ⟨h.constructed, h.meaningful, h.handshake, h.allowed⟩
  · have hinv := h.step hu
    exact ⟨hinv.constructed, hinv.meaningful, hinv.handshake, hinv.allowed⟩

/-- A host that holds its offers: the edge judges nothing. -/
theorem acceptOffer_of_held {p : PortParams} {inp : PortIn} {s : State} (hb : s.handshakeBroken = false)
    (hoffer : ∀ offer, s.standing = some offer → inp.reqValid = true ∧ assemble p inp.req = offer) :
    acceptOffer p inp (takeResponse inp s) = takeOffer p inp (takeResponse inp s) := by
  have hheld : ((takeResponse inp s).handshakeBroken || breaksHandshake p inp (takeResponse inp s)) = false := by
    rw [takeResponse_handshakeBroken, breaksHandshake_takeResponse, hb,
      (breaksHandshake_eq_false_iff p inp s).2 hoffer, Bool.or_self]
  rw [acceptOffer, judgeHandshake_held hheld]

/-- Settles O48: reset empties the block, and else each part of the edge keeps the invariant. -/
theorem edgeKeepsInvariant : Obligations.EdgeKeepsInvariant := by
  intro p ch inp s t h hoffer ht
  rcases edge_next ht with ⟨-, rfl⟩ | ⟨hrst, u, ha, hserve⟩
  · exact h.applyReset
  · rw [acceptOffer_of_held h.handshake (hoffer hrst)] at ha
    exact ((h.takeResponse inp).takeOffer ha).serveEdge hserve

end Sys2Proof.Machine
end
section
/-! O49, O51: the response lanes (spec/30_encoding.md R79, R81, spec/60_exceptions.md R200, spec/20_memory.md R55). -/

namespace Sys2Proof.Machine

theorem errorCode_le (kind : ErrorKind) : (errorCode kind).toNat ≤ 9 := by
  cases kind <;> decide

theorem statusCode_le (st : Status) : (statusCode st).toNat ≤ 9 := by
  cases st with
  | ok => decide
  | error kind => exact errorCode_le kind

theorem corrCode_ne_reserved (c : Corr) : corrCode c ≠ 0b11#2 := by
  cases c <;> decide

/-- Settles O49: the tables, and the bound case by case. -/
theorem statusAndCorrCodes : Obligations.StatusAndCorrCodes :=
  ⟨rfl, rfl, rfl, rfl, rfl, rfl, rfl, rfl, rfl, rfl, statusCode_le, rfl, rfl, rfl, corrCode_ne_reserved⟩

/-- `clog2 x` bits count up to `x`. -/
theorem le_two_pow_clog2 (x : Nat) : x ≤ 2 ^ clog2 x := by
  unfold clog2
  split
  · assumption
  · have hlog : x - 1 < 2 ^ ((x - 1).log2 + 1) := Nat.lt_log2_self
    omega

theorem lt_two_pow_lengthWidth {p : PortParams} {len : Nat} (h : len ≤ p.lcap) : len < 2 ^ lengthWidth p :=
  Nat.lt_of_lt_of_le (Nat.lt_succ_of_le h) (le_two_pow_clog2 (p.lcap + 1))

theorem lt_two_pow_indexWidth {e : Engine} {index : Nat} (h : index < e.n) : index < 2 ^ indexWidth e :=
  calc index < e.n := h
    _ ≤ 2 ^ clog2 e.n := le_two_pow_clog2 e.n
    _ ≤ 2 ^ indexWidth e := Nat.pow_le_pow_right Nat.two_pos (Nat.le_max_right 1 _)

/-- The lengths and indices of the responses the spec allows. -/
theorem Response.Allowed.length_le_and_index_lt {m : Nat} {r : Response} (hm : 1 ≤ m)
    (h : Response.Allowed (tables m) r) : r.vec.length ≤ codeLength m ∧ r.index < codeLength m := by
  have hn : 1 ≤ codeLength m := codeLength_pos hm
  have hk : dataLength m ≤ codeLength m := dataLength_le_codeLength m
  unfold Response.Allowed at h
  split at h
  · obtain ⟨hr, -, -⟩ := h
    rw [hr]
    exact ⟨Nat.zero_le _, hn⟩
  · split at h
    · rcases h with hr | ⟨hr, hlen⟩
      · rw [hr]
        exact ⟨Nat.zero_le _, hn⟩
      · exact ⟨hlen.le, by rw [hr]; exact hn⟩
    · obtain ⟨hr, hlen⟩ := h
      exact ⟨hlen.elim (·.le) (·.le.trans hk), by rw [hr]; exact hn⟩
    · obtain ⟨-, hindex, hlen⟩ := h
      exact ⟨hlen.elim (·.le) (·.le.trans hk), hindex⟩

theorem testBit_driveResponse_vec (r : Response) (i : Nat) :
    bit (driveResponse r).vec i = r.vec.getD i false := by
  rw [bit_eq_testBit]
  exact testBit_packBits r.vec i

/-- Settles O51: the vector is packed on its lane, and an allowed response is no longer than `n <= LCAP`. -/
theorem responseLanesCarryTheResponse : Obligations.ResponseLanesCarryTheResponse := by
  refine ⟨fun r => ⟨rfl, rfl, rfl, rfl, rfl, rfl, testBit_driveResponse_vec r⟩, fun m p r hlegal hallowed => ?_⟩
  obtain ⟨hm, hcap, -⟩ := (portLegal_iff p m).1 hlegal
  obtain ⟨hlen, hindex⟩ := hallowed.length_le_and_index_lt hm
  refine ⟨unpackBits_packBits r.vec, fun i hi => ?_, lt_two_pow_lengthWidth (hlen.trans hcap), ?_,
    lt_two_pow_indexWidth hindex⟩
  · rw [testBit_driveResponse_vec, List.getD_eq_default _ _ hi]
  · calc packBits r.vec < 2 ^ r.vec.length := packBits_lt r.vec
      _ ≤ 2 ^ p.lcap := Nat.pow_le_pow_right Nat.two_pos (hlen.trans hcap)

end Sys2Proof.Machine
end

section
/-! O2, O57, O53: what the port shows, after elaboration, at every edge and under reset (spec/30_encoding.md R81,
spec/70_reset_and_hazards.md R230, R231). -/

namespace Sys2Proof.Machine

@[simp] theorem portOutputs_reqReady (ch : PortChoice) (rst : Bool) (s : State) :
    (portOutputs ch rst s).reqReady = (s.reqReady && !rst) := rfl

@[simp] theorem portOutputs_rspValid (ch : PortChoice) (rst : Bool) (s : State) :
    (portOutputs ch rst s).rspValid = (!s.responses.isEmpty && !rst) := rfl

theorem portOutputs_rsp_of_cons {s : State} {r : Response} {rest : List Response} (h : s.responses = r :: rest)
    (ch : PortChoice) : (portOutputs ch false s).rsp = driveResponse r := by
  simp only [portOutputs, h]

theorem cast_codeLength (m : Nat) : (codeLength m : Int) = 2 ^ m - 1 := by
  rw [codeLength, Nat.cast_sub Nat.one_le_two_pow]
  simp

/-- Settles O2: the block holds the tables of `M`, nothing outstanding, and `req_ready` low. -/
theorem elaboratedBlockAfterReset : Obligations.ElaboratedBlockAfterReset := by
  intro M hM
  obtain ⟨h, -⟩ | ⟨-, hc⟩ := construct_cases M
  · omega
  have hm : (M.toNat : Int) = M := Int.toNat_of_nonneg (by omega)
  have hn : (codeLength M.toNat : Int) = 2 ^ M.toNat - 1 := cast_codeLength M.toNat
  have hk : dataLength M.toNat + M.toNat = codeLength M.toNat := dataLength_add M.toNat
  refine ⟨_, elaborate_of_construct_ok hc, hm, hn, ?_, rfl, rfl, fun ch rst => ⟨rfl, rfl, rfl, rfl⟩⟩
  rw [State.afterReset_engine, tables_k]
  omega

/-- Settles O57, at each level of `rst`. -/
theorem oldestResponseIsOffered : Obligations.OldestResponseIsOffered := by
  refine fun ch rst s => ⟨?_, fun r rest hrst hs => ?_, ?_⟩
  · rw [portOutputs_rspValid]
    cases rst <;> cases s.responses <;> simp
  · rw [hrst, portOutputs_rsp_of_cons hs]
  · rw [portOutputs_reqReady]
    cases rst <;> simp

/-- Settles O53: the edge applies reset, which keeps the engine value, and with it every response. -/
theorem resetDropsUnansweredRequests : Obligations.ResetDropsUnansweredRequests :=
  fun p ch _ _ s hrst => ⟨Bool.and_false _, Bool.and_false _, applyReset s, edge_reset hrst p ch s, rfl, rfl, rfl, rfl,
    rfl, fun _ => ⟨rfl, rfl⟩, fun r => ⟨responseTo s.engine r, step_request rfl, step_request rfl⟩⟩

end Sys2Proof.Machine
end

section
/-! O54, O55, O56, O58: an edge without reset (spec/30_encoding.md R81, spec/20_memory.md R60,
spec/70_reset_and_hazards.md R234). The offer leaves the state `afterOffer`, whether its host kept the handshake or
not, and the block's own work starts from there. -/

namespace Sys2Proof.Machine

/-- The state after an offer that is not refused, where `a` is what a transfer puts behind the requests waiting
(spec/30_encoding.md R81). -/
def afterOffer (p : PortParams) (inp : PortIn) (a : Accepted) (s : State) : State :=
  { s with
    pending := s.pending ++ (if inp.reqValid = true ∧ s.reqReady = true then [a] else [])
    standing := if inp.reqValid = true ∧ s.reqReady = false then some (assemble p inp.req) else none }

section
variable (p : PortParams) (inp : PortIn) (a : Accepted) (s : State)

@[simp] theorem afterOffer_engine : (afterOffer p inp a s).engine = s.engine := rfl
@[simp] theorem afterOffer_pending : (afterOffer p inp a s).pending =
    s.pending ++ (if inp.reqValid = true ∧ s.reqReady = true then [a] else []) := rfl
@[simp] theorem afterOffer_responses : (afterOffer p inp a s).responses = s.responses := rfl
@[simp] theorem afterOffer_standing : (afterOffer p inp a s).standing =
    if inp.reqValid = true ∧ s.reqReady = false then some (assemble p inp.req) else none := rfl
@[simp] theorem afterOffer_handshakeBroken : (afterOffer p inp a s).handshakeBroken = s.handshakeBroken := rfl
@[simp] theorem afterOffer_freeCount : (afterOffer p inp a s).freeCount = s.freeCount := rfl

end

/-- An offer of a host that kept the handshake, presentable where it transfers. -/
theorem takeOffer_of_kept {p : PortParams} {inp : PortIn} {s : State} (hb : s.handshakeBroken = false)
    (hpres : inp.reqValid = true → s.reqReady = true → presentable p inp.req = true) :
    takeOffer p inp s = .next (afterOffer p inp (.request (assemble p inp.req)) s) := by
  rcases takeOffer_cases p inp s with
    ⟨hv, ho⟩ | ⟨hv, hr, ho⟩ | ⟨-, -, hb', -⟩ | ⟨hv, hr, -, -, ho⟩ | ⟨hv, hr, -, hpres', -⟩
  · simp [ho, afterOffer, hv]
  · simp [ho, afterOffer, hv, hr]
  · cases hb.symm.trans hb'
  · simp [ho, afterOffer, hv, hr, State.accept]
  · cases (hpres hv hr).symm.trans hpres'

/-- An offer of a host that broke the handshake is never refused. -/
theorem takeOffer_of_broken {p : PortParams} {inp : PortIn} {s : State} (hb : s.handshakeBroken = true) :
    takeOffer p inp s = .next (afterOffer p inp .meaningless s) := by
  rcases takeOffer_cases p inp s with
    ⟨hv, ho⟩ | ⟨hv, hr, ho⟩ | ⟨hv, hr, -, ho⟩ | ⟨-, -, hb', -⟩ | ⟨-, -, hb', -⟩
  · simp [ho, afterOffer, hv]
  · simp [ho, afterOffer, hv, hr]
  · simp [ho, afterOffer, hv, hr, State.accept]
  · cases hb.symm.trans hb'
  · cases hb.symm.trans hb'

theorem edge_of_acceptOffer {p : PortParams} {ch : PortChoice} {inp : PortIn} {s u : State} (hrst : inp.rst = false)
    (h : acceptOffer p inp (takeResponse inp s) = .next u) : edge p ch inp s = serveEdge ch u := by
  simp [edge, hrst, h]

theorem edge_of_kept {p : PortParams} {ch : PortChoice} {inp : PortIn} {s : State} (hrst : inp.rst = false)
    (hb : s.handshakeBroken = false)
    (hoffer : ∀ offer, s.standing = some offer → inp.reqValid = true ∧ assemble p inp.req = offer)
    (hpres : inp.reqValid = true → s.reqReady = true → presentable p inp.req = true) :
    edge p ch inp s =
      serveEdge ch (afterOffer p inp (.request (assemble p inp.req)) (takeResponse inp s)) :=
  edge_of_acceptOffer hrst ((acceptOffer_of_held hb hoffer).trans
    (takeOffer_of_kept ((takeResponse_handshakeBroken inp s).trans hb)
      (by rwa [takeResponse_reqReady])))

/-- The handshake counts as broken at an edge: it was, or the host does not hold a standing offer. -/
theorem handshakeBroken_or_breaks_iff (p : PortParams) (inp : PortIn) (s : State) :
    (s.handshakeBroken || breaksHandshake p inp s) = true ↔ s.handshakeBroken = true ∨
      ∃ offer, s.standing = some offer ∧ ¬ (inp.reqValid = true ∧ assemble p inp.req = offer) := by
  rw [Bool.or_eq_true, ← Bool.not_eq_false (breaksHandshake p inp s), breaksHandshake_eq_false_iff]
  push Not
  rfl

/-- The contrary of `handshakeBroken_or_breaks_iff`. -/
theorem handshake_kept_iff (p : PortParams) (inp : PortIn) (s : State) :
    (s.handshakeBroken || breaksHandshake p inp s) = false ↔ s.handshakeBroken = false ∧
      ∀ offer, s.standing = some offer → inp.reqValid = true ∧ assemble p inp.req = offer := by
  rw [Bool.or_eq_false_iff, breaksHandshake_eq_false_iff]

theorem edge_of_broken {p : PortParams} {ch : PortChoice} {inp : PortIn} {s : State} (hrst : inp.rst = false)
    (hbroken : (s.handshakeBroken || breaksHandshake p inp s) = true) :
    edge p ch inp s = serveEdge ch (afterOffer p inp .meaningless (loseMeaning (takeResponse inp s))) := by
  refine edge_of_acceptOffer hrst ?_
  have hjudged : judgeHandshake p inp (takeResponse inp s) = loseMeaning (takeResponse inp s) :=
    judgeHandshake_broken (by rwa [takeResponse_handshakeBroken, breaksHandshake_takeResponse])
  rw [acceptOffer, hjudged, takeOffer_of_broken (loseMeaning_handshakeBroken _)]

theorem takeResponse_of_not_ready {inp : PortIn} (h : inp.rspReady = false) (s : State) : takeResponse inp s = s := by
  simp [takeResponse, h]

theorem serveEdge_idle {ch : PortChoice} (h : ch.serve = false) (s : State) :
    serveEdge ch s = .next { s with reqReady := ch.ready } := by
  simp [serveEdge, h]

theorem serveEdge_step {ch : PortChoice} {s t : State} (h : ch.serve = true) (hs : step s = .next t) :
    serveEdge ch s = .next { t with reqReady := ch.ready } := by
  simp [serveEdge, h, hs]

/-- Settles O54: the offer is taken, and nothing else happens. -/
theorem offeredRequestTransfers : Obligations.OfferedRequestTransfers := by
  intro p ch inp s hrst hvalid hready hrsp hserve hb hoffer hpres
  rw [edge_of_kept hrst hb (fun offer h => ⟨hvalid, hoffer offer h⟩) fun _ _ => hpres, serveEdge_idle hserve,
    takeResponse_of_not_ready hrsp]
  simp [afterOffer, hvalid, hready]

/-- Settles O55: without `req_ready` the offer transfers nothing, and its host is judged. -/
theorem offerStandsUntilReady : Obligations.OfferStandsUntilReady := by
  intro p ch inp s hrst hvalid hready hrsp hserve
  have hiff : (s.handshakeBroken || breaksHandshake p inp s) = true ↔
      s.handshakeBroken = true ∨ ∃ offer, s.standing = some offer ∧ offer ≠ assemble p inp.req := by
    simp only [handshakeBroken_or_breaks_iff, hvalid, true_and, ne_eq, @eq_comm _ (assemble p inp.req)]
  cases hbroken : s.handshakeBroken || breaksHandshake p inp s with
  | false =>
    obtain ⟨hb, hoffer⟩ := (handshake_kept_iff p inp s).1 hbroken
    have hedge := edge_of_kept (ch := ch) hrst hb hoffer fun _ h => by cases hready.symm.trans h
    rw [serveEdge_idle hserve, takeResponse_of_not_ready hrsp] at hedge
    refine ⟨_, hedge, rfl, by simp [hvalid, hready], rfl, rfl, ?_, fun _ => by simp [hready],
      fun h => (by cases hb.symm.trans h)⟩
    rw [← hiff, hbroken, afterOffer_handshakeBroken, hb]
  | true =>
    have hedge := edge_of_broken (ch := ch) hrst hbroken
    rw [serveEdge_idle hserve, takeResponse_of_not_ready hrsp] at hedge
    refine ⟨_, hedge, rfl, by simp [hvalid, hready], rfl, rfl, ?_, nofun, fun _ => by simp [hready]⟩
    rw [← hiff, hbroken, afterOffer_handshakeBroken, loseMeaning_handshakeBroken]

/-- A step keeps the judgement of the host, and adds at most one response. -/
theorem step_handshakeBroken_responses {s t : State} (h : step s = .next t) :
    t.handshakeBroken = s.handshakeBroken ∧
      ∃ new : List Response, new.length ≤ 1 ∧ t.responses = s.responses ++ new := by
  cases hp : s.pending with
  | nil =>
    cases (step_of_pending_nil hp).symm.trans h
    exact ⟨rfl, [], Nat.zero_le 1, (List.append_nil _).symm⟩
  | cons a rest =>
    cases a with
    | meaningless =>
      cases (step_of_pending_meaningless hp).symm.trans h
      exact ⟨rfl, [_], Nat.le_refl 1, rfl⟩
    | request r =>
      cases (step_request hp).symm.trans h
      exact ⟨rfl, [_], Nat.le_refl 1, rfl⟩

theorem serveEdge_handshakeBroken_responses {ch : PortChoice} {s t : State} (h : serveEdge ch s = .next t) :
    t.handshakeBroken = s.handshakeBroken ∧
      ∃ new : List Response, new.length ≤ 1 ∧ (ch.serve = false → new = []) ∧ t.responses = s.responses ++ new := by
  rcases serveEdge_cases ch s with ⟨-, he⟩ | ⟨hserve, u, hu, he⟩ <;> cases he.symm.trans h
  · exact ⟨rfl, [], Nat.zero_le 1, fun _ => rfl, (List.append_nil _).symm⟩
  · obtain ⟨hb, new, hlen, hresp⟩ := step_handshakeBroken_responses hu
    exact ⟨hb, new, hlen, fun hidle => (by cases hserve.symm.trans hidle), hresp⟩

theorem takeOffer_responses {p : PortParams} {inp : PortIn} {s t : State} (h : takeOffer p inp s = .next t) :
    t.responses = s.responses := by
  rcases takeOffer_cases p inp s with
    ⟨-, ho⟩ | ⟨-, -, ho⟩ | ⟨-, -, -, ho⟩ | ⟨-, -, -, -, ho⟩ | ⟨-, -, -, -, ho⟩ <;> cases ho.symm.trans h <;> rfl

theorem acceptOffer_responses {p : PortParams} {inp : PortIn} {s t : State} (h : acceptOffer p inp s = .next t) :
    t.responses = s.responses :=
  (takeOffer_responses h).trans (judgeHandshake_responses p inp s)

/-- Any edge without reset: the oldest response leaves, and at most one new one is added. -/
theorem edge_responses {p : PortParams} {ch : PortChoice} {inp : PortIn} {s t : State} (hrst : inp.rst = false)
    (h : edge p ch inp s = .next t) :
    ∃ new : List Response, new.length ≤ 1 ∧ (ch.serve = false → new = []) ∧
      t.responses = (if inp.rspReady = true then s.responses.tail else s.responses) ++ new := by
  rcases edge_next h with ⟨hrst', -⟩ | ⟨-, u, ha, hserve⟩
  · cases hrst.symm.trans hrst'
  · obtain ⟨-, new, hlen, hidle, hresp⟩ := serveEdge_handshakeBroken_responses hserve
    rw [acceptOffer_responses ha, takeResponse_responses] at hresp
    exact ⟨new, hlen, hidle, hresp⟩

/-- Settles O56: the second part runs the step on the state after the offer, whose queue is `q`. -/
theorem responsesLeaveInOrder : Obligations.ResponsesLeaveInOrder := by
  refine ⟨fun p ch inp s t => edge_responses, fun p ch inp s q hrst hb hoffer hpres hq => ?_⟩
  have hedge := edge_of_kept (ch := ch) hrst hb hoffer hpres
  have hpending : (afterOffer p inp (.request (assemble p inp.req)) (takeResponse inp s)).pending = q := by
    rw [hq, afterOffer_pending, takeResponse_pending, takeResponse_reqReady]
  have hstanding : (afterOffer p inp (.request (assemble p inp.req)) (takeResponse inp s)).standing =
      if inp.reqValid = true ∧ s.reqReady = false then some (assemble p inp.req) else none := by
    rw [afterOffer_standing, takeResponse_reqReady]
  have hengine : (afterOffer p inp (.request (assemble p inp.req)) (takeResponse inp s)).engine = s.engine :=
    takeResponse_engine inp s
  have hbroken : (afterOffer p inp (.request (assemble p inp.req)) (takeResponse inp s)).handshakeBroken = false :=
    (takeResponse_handshakeBroken inp s).trans hb
  have hresp : (afterOffer p inp (.request (assemble p inp.req)) (takeResponse inp s)).responses =
      if inp.rspReady = true then s.responses.tail else s.responses := takeResponse_responses inp s
  generalize afterOffer p inp (.request (assemble p inp.req)) (takeResponse inp s) = u at *
  cases hserve : ch.serve with
  | false =>
    exact ⟨_, hedge.trans (serveEdge_idle hserve u), hengine, rfl, hbroken, hstanding,
      fun _ => ⟨hpending, hresp⟩, nofun⟩
  | true =>
    match q with
    | [] =>
      exact ⟨_, hedge.trans (serveEdge_step hserve (step_of_pending_nil hpending)), hengine, rfl, hbroken, hstanding,
        fun _ => ⟨hpending, hresp⟩, nofun⟩
    | .meaningless :: rest =>
      exact ⟨_, hedge.trans (serveEdge_step hserve (step_of_pending_meaningless hpending)), hengine, rfl, hbroken,
        hstanding, nofun, nofun⟩
    | .request r :: rest =>
      refine ⟨_, hedge.trans (serveEdge_step hserve (step_request hpending)), hengine, rfl, hbroken, hstanding, nofun,
        fun r' rest' _ hcons => ?_⟩
      cases hcons
      exact ⟨responseTo s.engine r, step_request rfl, rfl, by rw [← hresp, ← hengine]⟩

/-- Settles O58: the requests lose their meaning where the host is judged, one without meaning gets a free value, and
neither the offer nor the service mends the handshake. -/
theorem brokenHandshakeGetsAFreeResponse : Obligations.BrokenHandshakeGetsAFreeResponse := by
  refine ⟨fun p ch inp s hrst hserve hbreak => ?_, fun s rest => step_of_pending_meaningless,
    fun p ch inp s t hrst hb ht => ?_⟩
  · have hedge := edge_of_broken (ch := ch) hrst ((handshakeBroken_or_breaks_iff p inp s).2 hbreak)
    refine ⟨_, hedge.trans (serveEdge_idle hserve _), ?_⟩
    simp
  · rw [edge_of_broken hrst ((handshakeBroken_or_breaks_iff p inp s).2 (.inl hb))] at ht
    exact (serveEdge_handshakeBroken_responses ht).1

end Sys2Proof.Machine
end

section
/-! Operand assembly from the lanes (spec/30_encoding.md R83, spec/20_memory.md R55): what each lane assembles to, and
which of its bits are read. -/

namespace Sys2Proof.Machine

/-- Bit `j` of character `i` of the word lane is bit `8 i + j` of the lane. -/
theorem getLsbD_lane_char {j : Nat} (bus i : Nat) (hj : j < 8) :
    (BitVec.ofNat 8 (bus / 2 ^ (8 * i))).getLsbD j = bit bus (8 * i + j) := by
  rw [BitVec.getLsbD_ofNat, Nat.testBit_div_two_pow, bit_eq_testBit, Nat.add_comm]
  simp [hj]

theorem getLsbD_getD_unpackChars {len i j : Nat} (bus : Nat) (hi : i < len) (hj : j < 8) :
    ((unpackChars len bus).getD i 0#8).getLsbD j = bit bus (8 * i + j) := by
  rw [← getLsbD_lane_char bus i hj]
  simp [unpackChars, hi]

theorem getD_unpackBits {len i : Nat} (bus : Nat) (hi : i < len) : (unpackBits len bus).getD i false = bit bus i := by
  simp [unpackBits, hi]

theorem unpackChars_congr {len a b : Nat} (h : ∀ i, i < 8 * len → bit a i = bit b i) :
    unpackChars len a = unpackChars len b := by
  refine List.map_congr_left fun i hi => BitVec.eq_of_getLsbD_eq fun j hj => ?_
  have hi : i < len := List.mem_range.1 hi
  rw [getLsbD_lane_char a i hj, getLsbD_lane_char b i hj, h (8 * i + j) (by omega)]

theorem unpackBits_congr {len a b : Nat} (h : ∀ i, i < len → bit a i = bit b i) :
    unpackBits len a = unpackBits len b :=
  List.map_congr_left fun i hi => h i (List.mem_range.1 hi)

/-- A field is read through its low bits. -/
theorem sext_congr {w a b : Nat} (h : ∀ i, i < w → bit a i = bit b i) : sext w a = sext w b := by
  cases w with
  | zero => simp [sext, Nat.mod_one]
  | succ w =>
    have hmod : a % 2 ^ (w + 1) = b % 2 ^ (w + 1) := Nat.eq_of_testBit_eq fun i => by
      by_cases hi : i < w + 1
      · simpa [Nat.testBit_mod_two_pow, hi] using h i hi
      · simp [Nat.testBit_mod_two_pow, hi]
    rw [sext, sext, Nat.add_sub_cancel, h w (Nat.lt_succ_self w), hmod]

theorem sext_range {w : Nat} (hw : 1 ≤ w) (f : Nat) :
    -(2 ^ (w - 1) : Int) ≤ sext w f ∧ sext w f < (2 ^ (w - 1) : Int) := by
  obtain ⟨w, rfl⟩ : ∃ k, w = k + 1 := ⟨w - 1, by omega⟩
  have hpow : 2 ^ (w + 1) = 2 * 2 ^ w := Nat.pow_succ'
  have hpos : 0 < 2 ^ (w + 1) := Nat.two_pow_pos (w + 1)
  have hlo := Int.le_bmod (x := f) hpos
  have hhi := Int.bmod_lt (x := f) hpos
  have hcast : (2 ^ w : Int) = (2 ^ w : Nat) := by simp
  rw [sext_succ_eq_bmod, Nat.add_sub_cancel, hcast]
  exact ⟨by omega, by omega⟩

/-- A field differs from the position it is read as by a multiple of `2 ^ w`. -/
theorem two_pow_dvd_sext_sub {w : Nat} (hw : 1 ≤ w) (f : Nat) : (2 ^ w : Int) ∣ sext w f - f := by
  obtain ⟨w, rfl⟩ : ∃ k, w = k + 1 := ⟨w - 1, by omega⟩
  rw [sext_succ_eq_bmod]
  exact_mod_cast Int.dvd_bmod_sub_self (x := f) (m := 2 ^ (w + 1))

theorem assembleRows_of_zero {pr : PortRequest} (h : pr.rows = 0#2) : assembleRows pr = [] := by
  simp [assembleRows, h]

theorem assembleRows_of_one {pr : PortRequest} (h : pr.rows = 1#2) :
    assembleRows pr = [unpackBits pr.cwLen pr.cw] := by
  simp [assembleRows, h]

theorem assembleRows_of_many {pr : PortRequest} (h0 : pr.rows ≠ 0#2) (h1 : pr.rows ≠ 1#2) :
    assembleRows pr = [unpackBits pr.cwLen pr.cw, []] := by
  unfold assembleRows
  split
  · contradiction
  · contradiction
  · rfl

theorem assembleRows_of_ne_zero {pr : PortRequest} (h : pr.rows ≠ 0#2) :
    ∃ further, assembleRows pr = unpackBits pr.cwLen pr.cw :: further ∧ (pr.rows = 1#2 ↔ further = []) := by
  by_cases h1 : pr.rows = 1#2
  · exact ⟨[], assembleRows_of_one h1, by simp [h1]⟩
  · exact ⟨[[]], assembleRows_of_many h h1, by simp [h1]⟩

end Sys2Proof.Machine
end

section
/-! O59: what the port cannot carry (spec/30_encoding.md R82, spec/93_implementation_defined.md I10). -/

namespace Sys2Proof.Machine

theorem posFits_sext (p : PortParams) (f : Nat) : posFits p (sext p.posW f) = true := by
  rw [posFits_iff]
  rcases Nat.eq_zero_or_pos p.posW with hw | hw
  · simp [sext, hw, Nat.mod_one]
  · exact_mod_cast sext_range hw f

theorem rowsFit_assembleRows (p : PortParams) (pr : PortRequest) :
    rowsFit p (assembleRows pr) = false ↔ pr.rows = 1#2 ∧ p.lcap < pr.cwLen := by
  by_cases h0 : pr.rows = 0#2
  · simp [assembleRows_of_zero h0, rowsFit, h0]
  by_cases h1 : pr.rows = 1#2
  · simp [assembleRows_of_one h1, rowsFit, h1]
  · simp [assembleRows_of_many h0 h1, rowsFit, h1]

/-- An operand that cannot be presented: a word or a single row, named by the descriptor and longer than `LCAP`. -/
theorem presentable_eq_false_iff (p : PortParams) (pr : PortRequest) :
    presentable p pr = false ↔ (pr.desc = 0x01#8 ∧ p.lcap < pr.wordLen) ∨
      ((pr.desc = 0x02#8 ∨ pr.desc = 0x03#8 ∨ pr.desc = 0x04#8 ∨ pr.desc = 0x05#8) ∧
        pr.rows = 1#2 ∧ p.lcap < pr.cwLen) := by
  rw [← rowsFit_assembleRows]
  unfold presentable assemble
  by_cases htable : pr.desc = 0x01#8 ∨ pr.desc = 0x02#8 ∨ pr.desc = 0x03#8 ∨ pr.desc = 0x04#8 ∨ pr.desc = 0x05#8
  · rcases htable with h | h | h | h | h <;> simp [h, Instr.wellFormed, posFits_sext]
  · obtain ⟨x, hx⟩ := (decode_descriptor_cases pr.desc).resolve_left htable
    rw [not_or, not_or] at htable
    simp [hx, htable]

theorem serveEdge_ne_refused (ch : PortChoice) (s : State) (r : Refusal) : serveEdge ch s ≠ .refused r := by
  rcases serveEdge_cases ch s with ⟨-, he⟩ | ⟨-, t, -, he⟩ <;> rw [he] <;> nofun

/-- The one refusal of an edge: a transfer that cannot be presented. -/
theorem edge_of_not_presentable {p : PortParams} {ch : PortChoice} {inp : PortIn} {s : State} (hrst : inp.rst = false)
    (hvalid : inp.reqValid = true) (hready : s.reqReady = true) (hb : s.handshakeBroken = false)
    (hoffer : ∀ offer, s.standing = some offer → inp.reqValid = true ∧ assemble p inp.req = offer)
    (hpres : presentable p inp.req = false) : edge p ch inp s = .refused .unpresentable := by
  have haccept : acceptOffer p inp (takeResponse inp s) = .refused .unpresentable := by
    rw [acceptOffer_of_held hb hoffer]
    simp [takeOffer, hvalid, hready, hb, hpres]
  simp [edge, hrst, haccept]

/-- An edge that is refused is the one of `edge_of_not_presentable`: every other one ends in the block's own work. -/
theorem of_edge_refused {p : PortParams} {ch : PortChoice} {inp : PortIn} {s : State} {r : Refusal}
    (h : edge p ch inp s = .refused r) :
    inp.rst = false ∧ inp.reqValid = true ∧ s.reqReady = true ∧ s.handshakeBroken = false ∧
      (∀ offer, s.standing = some offer → assemble p inp.req = offer) ∧ presentable p inp.req = false := by
  cases hrst : inp.rst with
  | true => cases (edge_reset hrst p ch s).symm.trans h
  | false =>
    cases hbroken : s.handshakeBroken || breaksHandshake p inp s with
    | true => exact absurd ((edge_of_broken hrst hbroken).symm.trans h) (serveEdge_ne_refused ch _ r)
    | false =>
      obtain ⟨hb, hoffer⟩ := (handshake_kept_iff p inp s).1 hbroken
      by_contra hcon
      have hpres : inp.reqValid = true → s.reqReady = true → presentable p inp.req = true := fun hvalid hready =>
        Bool.eq_true_of_not_eq_false fun hpres =>
          hcon ⟨rfl, hvalid, hready, hb, fun offer ho => (hoffer offer ho).2, hpres⟩
      exact serveEdge_ne_refused ch _ r ((edge_of_kept hrst hb hoffer hpres).symm.trans h)

/-- Settles O59: the port refuses exactly a transfer that is not presentable. -/
theorem onlyUnpresentableRequestsAreRefused : Obligations.OnlyUnpresentableRequestsAreRefused := by
  intro p ch inp s
  rw [← presentable_eq_false_iff]
  refine ⟨fun ⟨r, h⟩ => of_edge_refused h, fun ⟨hrst, hvalid, hready, hb, hoffer, hpres⟩ => ?_⟩
  exact ⟨_, edge_of_not_presentable hrst hvalid hready hb (fun offer h => ⟨hvalid, hoffer offer h⟩) hpres⟩

end Sys2Proof.Machine
end

section
/-! O50: a request over the lanes gets the response of the request itself (spec/30_encoding.md R81 to R83). The codeword
operand is judged by `codewordOperand`, for which all operands of two or more rows are one. -/

namespace Sys2Proof.Machine

/-- Requests with one descriptor that agree on what it names, up to `codewordOperand`, get the same response. -/
theorem responseTo_congr_of_named {e : Engine} {r r' : Request} (hdesc : r.desc = r'.desc)
    (hword : r.desc = 0x01#8 → r.word = r'.word)
    (hrows : r.desc = 0x02#8 ∨ r.desc = 0x03#8 ∨ r.desc = 0x04#8 ∨ r.desc = 0x05#8 →
      codewordOperand e r.rows = codewordOperand e r'.rows)
    (hpos : r.desc = 0x05#8 → r.pos = r'.pos) : responseTo e r = responseTo e r' := by
  obtain ⟨desc, word, rows, pos⟩ := r
  obtain ⟨desc', word', rows', pos'⟩ := r'
  dsimp only at hdesc hword hrows hpos
  subst hdesc
  rcases decode_descriptor_cases desc with (rfl | rfl | rfl | rfl | rfl) | ⟨x, hx⟩
  · rw [hword rfl]
    exact responseTo_congr ((decode_0x01 word' rows pos).trans (decode_0x01 word' rows' pos').symm) e
  · simp [responseTo, resultOf, checkResult, hrows]
  · simp [responseTo, resultOf, correctResult, correctionOfRows, hrows]
  · simp [responseTo, resultOf, decodeResult, correctionOfRows, hrows]
  · simp [responseTo, resultOf, bitflipResult, hrows, hpos]
  · rw [responseTo_congr ((hx word rows pos).trans (hx word' rows' pos').symm)]

theorem length_drivenRow_le (p : PortParams) (r : Request) : (drivenRow p r).length ≤ p.lcap :=
  List.length_take_le ..

/-- What is driven is presentable: no lane carries more than `LCAP` elements. -/
theorem presentable_driveRequest (p : PortParams) (r : Request) : presentable p (driveRequest p r) = true := by
  refine Bool.eq_true_of_not_eq_false fun h => ?_
  rcases (presentable_eq_false_iff p _).1 h with ⟨-, hlen⟩ | ⟨-, -, hlen⟩
  · exact absurd (List.length_take_le p.lcap r.word) (Nat.not_le_of_lt hlen)
  · exact absurd (length_drivenRow_le p r) (Nat.not_le_of_lt hlen)

theorem codewordOperand_assembleRows_driveRequest {p : PortParams} {r : Request} (h : rowsFit p r.rows = true)
    (e : Engine) : codewordOperand e (assembleRows (driveRequest p r)) = codewordOperand e r.rows := by
  obtain ⟨desc, word, rows, pos⟩ := r
  match rows with
  | [] => rfl
  | [v] =>
    have hv : v.take p.lcap = v := List.take_of_length_le (by simpa [rowsFit] using h)
    rw [assembleRows_of_one rfl]
    simp [driveRequest, drivenRow, hv, unpackBits_packBits]
  | row :: row' :: rest =>
    have htwo : (driveRequest p { desc, word, rows := row :: row' :: rest, pos }).rows = 2#2 := by
      simp [driveRequest]
    rw [assembleRows_of_many (by simp [htwo]) (by simp [htwo]), codewordOperand_of_two_le (by simp),
      codewordOperand_of_two_le (by simp)]

/-- A request whose named operands fit gets its own response over the lanes. -/
theorem responseTo_assemble_driveRequest {p : PortParams} {r : Request} (hw : 1 ≤ p.posW)
    (hfit : ∀ i, decode r = .ok i → i.wellFormed p = true) (e : Engine) :
    responseTo e (assemble p (driveRequest p r)) = responseTo e r := by
  obtain ⟨desc, word, rows, pos⟩ := r
  refine responseTo_congr_of_named rfl (fun h => ?word) (fun h => ?rows) (fun h => ?pos)
  case word =>
    cases (show desc = _ from h)
    have hlen : word.take p.lcap = word :=
      List.take_of_length_le (by simpa [Instr.wellFormed] using hfit _ (decode_0x01 word rows pos))
    simp [assemble, driveRequest, hlen, unpackChars_packChars]
  case rows =>
    refine codewordOperand_assembleRows_driveRequest ?_ e
    rcases (show desc = _ ∨ desc = _ ∨ desc = _ ∨ desc = _ from h) with rfl | rfl | rfl | rfl
    · exact hfit _ (decode_0x02 word rows pos)
    · exact hfit _ (decode_0x03 word rows pos)
    · exact hfit _ (decode_0x04 word rows pos)
    · exact ((Bool.and_eq_true _ _).mp (hfit _ (decode_0x05 word rows pos))).1
  case pos =>
    cases (show desc = _ from h)
    exact sext_twosComplement hw ((Bool.and_eq_true _ _).mp (hfit _ (decode_0x05 word rows pos))).2

theorem twosComplement_lt (w : Nat) (x : Int) : twosComplement w x < 2 ^ w := by
  have hlt : x % (2 ^ w : Nat) < (2 ^ w : Nat) := Int.emod_lt_of_pos x (by exact_mod_cast Nat.two_pow_pos w)
  have hcast := cast_twosComplement w x
  omega

theorem packChars_take_lt (w : List Char8) (cap : Nat) : packChars (w.take cap) < 2 ^ (8 * cap) :=
  calc packChars (w.take cap) < 2 ^ (8 * (w.take cap).length) := packChars_lt _
    _ ≤ 2 ^ (8 * cap) := Nat.pow_le_pow_right Nat.two_pos (Nat.mul_le_mul_left 8 (List.length_take_le ..))

theorem packBits_drivenRow_lt (p : PortParams) (r : Request) : packBits (drivenRow p r) < 2 ^ p.lcap :=
  calc packBits (drivenRow p r) < 2 ^ (drivenRow p r).length := packBits_lt _
    _ ≤ 2 ^ p.lcap := Nat.pow_le_pow_right Nat.two_pos (length_drivenRow_le p r)

theorem assemble_congr {p : PortParams} {a b : PortRequest} (hdesc : a.desc = b.desc) (hlen : a.wordLen = b.wordLen)
    (hcount : a.rows = b.rows) (hcw : a.cwLen = b.cwLen) (hword : ∀ i, i < 8 * a.wordLen → bit a.word i = bit b.word i)
    (hrow : ∀ i, i < a.cwLen → bit a.cw i = bit b.cw i) (hpos : ∀ i, i < p.posW → bit a.pos i = bit b.pos i) :
    assemble p a = assemble p b := by
  have hrows : assembleRows a = assembleRows b := by
    rw [assembleRows, assembleRows, hcount, ← hcw, unpackBits_congr hrow]
  rw [assemble, assemble, hdesc, ← hlen, unpackChars_congr hword, hrows, sext_congr hpos]

/-- Where the row count is not 1, nothing else of the codeword lanes is judged. -/
theorem codewordOperand_assembleRows_congr {a b : PortRequest} (hcount : a.rows = b.rows)
    (hone : a.rows = 1#2 → a.cwLen = b.cwLen ∧ ∀ i, i < a.cwLen → bit a.cw i = bit b.cw i) (e : Engine) :
    codewordOperand e (assembleRows a) = codewordOperand e (assembleRows b) := by
  by_cases h0 : a.rows = 0#2
  · rw [assembleRows_of_zero h0, assembleRows_of_zero (hcount ▸ h0)]
  by_cases h1 : a.rows = 1#2
  · obtain ⟨hlen, hrow⟩ := hone h1
    rw [assembleRows_of_one h1, assembleRows_of_one (hcount ▸ h1), ← hlen, unpackBits_congr hrow]
  · rw [assembleRows_of_many h0 h1, assembleRows_of_many (hcount ▸ h0) (hcount ▸ h1),
      codewordOperand_of_two_le (by simp), codewordOperand_of_two_le (by simp)]

/-- Two requests with one response lead to the same outcome. -/
theorem step_congr_of_responseTo {r r' : Request} {s : State} (h : responseTo s.engine r = responseTo s.engine r')
    (rest : List Accepted) :
    step { s with pending := .request r :: rest } = step { s with pending := .request r' :: rest } := by
  rw [step_request rfl, step_request rfl, h]

/-- Settles O50: the lanes one by one, then the responses, which see a request through its named operands alone. -/
theorem portRequestKeepsTheResponse : Obligations.PortRequestKeepsTheResponse := by
  refine ⟨fun p a => ⟨rfl, length_unpackChars .., fun i j => getLsbD_getD_unpackChars a.word, assembleRows_of_zero,
      fun hne => ?rows, fun hw => ?pos⟩,
    fun p r s rest hw hfit => ⟨presentable_driveRequest p r, ?driven⟩,
    fun p r => ⟨lt_two_pow_lengthWidth (List.length_take_le ..), packChars_take_lt r.word p.lcap,
      lt_two_pow_lengthWidth (length_drivenRow_le p r), packBits_drivenRow_lt p r, twosComplement_lt p.posW r.pos⟩,
    fun p a b => assemble_congr, fun p a b s rest hdesc hword hrows hpos => ?unread⟩
  case rows =>
    obtain ⟨further, hassemble, hone⟩ := assembleRows_of_ne_zero hne
    exact ⟨_, further, hassemble, length_unpackBits .., fun i => getD_unpackBits a.cw, hone⟩
  case pos =>
    obtain ⟨hlo, hhi⟩ := sext_range hw a.pos
    exact ⟨hlo, hhi, two_pow_dvd_sext_sub hw a.pos⟩
  case driven =>
    exact step_congr_of_responseTo (responseTo_assemble_driveRequest hw hfit _) rest
  case unread =>
    refine step_congr_of_responseTo (responseTo_congr_of_named hdesc (fun h => ?_) (fun h => ?_) fun h => ?_) rest
    · obtain ⟨hlen, hbits⟩ := hword h
      exact (unpackChars_congr hbits).trans (congrArg (unpackChars · b.word) hlen)
    · obtain ⟨hcount, hone⟩ := hrows h
      exact codewordOperand_assembleRows_congr hcount hone _
    · exact sext_congr (hpos h)

end Sys2Proof.Machine
end

section
/-! O60, the pieces of a line (spec/30_encoding.md R84): spaces, names, codes, characters, rows and integers. Each lemma
says what a parser answers on a text that the model writes, with the characters after it. -/

namespace Sys2Proof.Machine.Asm

@[simp] theorem skipSpaces_nil : skipSpaces [] = [] := rfl

@[simp] theorem skipSpaces_space (cs : List Char) : skipSpaces (' ' :: cs) = skipSpaces cs := rfl

theorem skipSpaces_of_ne {c : Char} (h : c ≠ ' ') (cs : List Char) : skipSpaces (c :: cs) = c :: cs := by
  simp [skipSpaces, h]

/-- A letter or a period in capitals was one before. -/
theorem nameChar_of_toUpper {c : Char} (h : (c.toUpper.isAlpha || c.toUpper == '.') = true) :
    (c.isAlpha || c == '.') = true := by
  by_cases hlower : c.isLower = true
  · simp [Char.isAlpha, hlower]
  · have hsame : c.toUpper = c := dif_neg (by simpa [Char.isLower] using hlower)
    rwa [hsame] at h

theorem mnemonic_name {name : List Char} (h : ∀ c ∈ name, (c.isAlpha || c == '.') = true) (operands : List Char) :
    mnemonic (name ++ ' ' :: operands) = (name.map Char.toUpper, ' ' :: operands) := by
  induction name with
  | nil => rfl
  | cons c name ih =>
    have ih := ih fun c hc => h c (List.mem_cons_of_mem _ hc)
    rw [List.cons_append, mnemonic, if_pos (h c List.mem_cons_self), ih, List.map_cons]

/-- A line whose name, in capitals, is a non-empty word of letters and periods. -/
theorem mnemonic_lineText {name capitals : List Char} (hname : name.map Char.toUpper = capitals) (hne : capitals ≠ [])
    (h : ∀ c ∈ capitals, (c.isAlpha || c == '.') = true) (operands : List Char) :
    mnemonic (skipSpaces (lineText name operands)) = (capitals, ' ' :: operands) := by
  subst hname
  have hchars : ∀ c ∈ name, (c.isAlpha || c == '.') = true :=
    fun c hc => nameChar_of_toUpper (h _ (List.mem_map_of_mem hc))
  have hspaces : skipSpaces (lineText name operands) = lineText name operands := by
    cases name with
    | nil => exact absurd rfl hne
    | cons c name =>
      refine skipSpaces_of_ne ?_ _
      rintro rfl
      exact absurd (hchars ' ' List.mem_cons_self) (by decide)
  rw [hspaces]
  exact mnemonic_name hchars operands

theorem hexDigit_hexChar : ∀ x < 16, hexDigit (hexChar x) = some x := by decide

@[simp] theorem hexByte_byteText (b : BitVec 8) (cs : List Char) : hexByte (byteText b ++ cs) = some (b, cs) := by
  have hb : b.toNat < 256 := b.isLt
  have hdigits : 16 * (b.toNat / 16) + b.toNat % 16 = b.toNat := Nat.div_add_mod ..
  simp [byteText, hexByte, hexDigit_hexChar _ (show b.toNat / 16 < 16 by omega),
    hexDigit_hexChar _ (Nat.mod_lt _ (show 16 > 0 by omega)), hdigits]

@[simp] theorem skipSpaces_byteText (b : BitVec 8) (cs : List Char) :
    skipSpaces (byteText b ++ cs) = byteText b ++ cs :=
  skipSpaces_of_ne (by decide) _

theorem codes_last (b : Char8) (fuel : Nat) : codes (fuel + 1) (byteText b) = some ([b], []) := by
  have hbyte := hexByte_byteText b []
  have hspaces := skipSpaces_byteText b []
  rw [List.append_nil] at hbyte hspaces
  simp [codes, hspaces, hbyte]

theorem codes_comma {fuel : Nat} {more after : List Char} {w : List Char8} (h : codes fuel more = some (w, after))
    (b : Char8) : codes (fuel + 1) (byteText b ++ ',' :: more) = some (b :: w, after) := by
  simp [codes, skipSpaces_of_ne (show ',' ≠ ' ' by decide), h]

theorem codes_byteTexts (w : List Char8) (b : Char8) (fuel : Nat) (h : w.length ≤ fuel) :
    codes (fuel + 1) (commas ((b :: w).map byteText)) = some (b :: w, []) := by
  induction w generalizing b fuel with
  | nil => exact codes_last b fuel
  | cons b' w ih =>
    obtain ⟨fuel, rfl⟩ : ∃ k, fuel = k + 1 := ⟨fuel - 1, by simp at h; omega⟩
    exact codes_comma (ih b' fuel (Nat.le_of_succ_le_succ h)) b

theorem quoted_chars {w : List Char} (h : ∀ c ∈ w, c ≠ '"' ∧ c.toNat < 256) :
    quoted (w ++ ['"']) = some (w.map fun c => BitVec.ofNat 8 c.toNat, []) := by
  induction w with
  | nil => rfl
  | cons c w ih =>
    obtain ⟨hquote, hcode⟩ := h c List.mem_cons_self
    have ih := ih fun c hc => h c (List.mem_cons_of_mem _ hc)
    simp [quoted, charCode, hcode, ih]

theorem rowBits_chars {t : List Char} (h : ∀ c ∈ t, c = '0' ∨ c = '1' ∨ c = ' ') (tail : List Char) :
    rowBits (t ++ ']' :: tail) = some (rowValue t, tail) := by
  induction t with
  | nil => rfl
  | cons c t ih =>
    have ih := ih fun c hc => h c (List.mem_cons_of_mem _ hc)
    rcases h c List.mem_cons_self with rfl | rfl | rfl <;> simp [rowBits, rowValue, ih]

/-- The inside of a row begins with no opening bracket. -/
theorem skipSpaces_chars {t : List Char} (h : ∀ c ∈ t, c = '0' ∨ c = '1' ∨ c = ' ') (tail : List Char) :
    ∃ c cs, skipSpaces (t ++ ']' :: tail) = c :: cs ∧ c ≠ '[' := by
  induction t with
  | nil => exact ⟨']', tail, rfl, by decide⟩
  | cons c t ih =>
    rcases h c List.mem_cons_self with rfl | rfl | rfl
    · exact ⟨'0', _, rfl, by decide⟩
    · exact ⟨'1', _, rfl, by decide⟩
    · exact ih fun c hc => h c (List.mem_cons_of_mem _ hc)

theorem rowList_last {t : List Char} (h : ∀ c ∈ t, c = '0' ∨ c = '1' ∨ c = ' ') (fuel : Nat) (tail : List Char) :
    rowList (fuel + 1) (bracketed t ++ ']' :: tail) = some ([rowValue t], tail) := by
  have hrow := rowBits_chars h (']' :: tail)
  simp [rowList, bracketed, skipSpaces_of_ne (show '[' ≠ ' ' by decide), hrow,
    skipSpaces_of_ne (show ']' ≠ ' ' by decide)]

theorem rowList_comma {t : List Char} (h : ∀ c ∈ t, c = '0' ∨ c = '1' ∨ c = ' ') {fuel : Nat}
    {more after : List Char} {rows : List Vec} (hmore : rowList fuel more = some (rows, after)) :
    rowList (fuel + 1) (bracketed t ++ ',' :: more) = some (rowValue t :: rows, after) := by
  have hrow := rowBits_chars h (',' :: more)
  simp [rowList, bracketed, skipSpaces_of_ne (show '[' ≠ ' ' by decide), hrow,
    skipSpaces_of_ne (show ',' ≠ ' ' by decide), hmore]

theorem rowList_bracketed (texts : List (List Char)) (t : List Char) (fuel : Nat) (hfuel : texts.length ≤ fuel)
    (h : ∀ u ∈ t :: texts, ∀ c ∈ u, c = '0' ∨ c = '1' ∨ c = ' ') (tail : List Char) :
    rowList (fuel + 1) (commas ((t :: texts).map bracketed) ++ ']' :: tail) =
      some ((t :: texts).map rowValue, tail) := by
  have ht := h t List.mem_cons_self
  induction texts generalizing t fuel with
  | nil => exact rowList_last ht fuel tail
  | cons u texts ih =>
    have hu : ∀ v ∈ u :: texts, ∀ c ∈ v, c = '0' ∨ c = '1' ∨ c = ' ' := fun v hv => h v (List.mem_cons_of_mem _ hv)
    obtain ⟨fuel, rfl⟩ : ∃ k, fuel = k + 1 := ⟨fuel - 1, by simp at hfuel; omega⟩
    have htext : commas ((t :: u :: texts).map bracketed) ++ ']' :: tail =
        bracketed t ++ ',' :: (commas ((u :: texts).map bracketed) ++ ']' :: tail) := List.append_assoc ..
    rw [htext]
    exact rowList_comma ht (ih u fuel (Nat.le_of_succ_le_succ hfuel) hu (hu u List.mem_cons_self))

theorem digit_char : ∀ d < 10, ('0' ≤ Char.ofNat (48 + d) ∧ Char.ofNat (48 + d) ≤ '9') ∧
    (Char.ofNat (48 + d)).toNat - 48 = d := by
  decide

/-- The value of decimal digits behind those of value `acc`. -/
def digitsValue (acc : Nat) (ds : List Nat) : Nat := ds.foldl (fun acc d => 10 * acc + d) acc

theorem digits_chars (ds : List Nat) (d acc : Nat) (h : ∀ x ∈ d :: ds, x < 10) :
    digits acc ((d :: ds).map fun d => Char.ofNat (48 + d)) = some (digitsValue acc (d :: ds), []) := by
  obtain ⟨hrange, hvalue⟩ := digit_char d (h d List.mem_cons_self)
  induction ds generalizing d acc with
  | nil =>
    rw [List.map_cons, digits, if_pos hrange, hvalue]
    rfl
  | cons d' ds ih =>
    have htail : ∀ x ∈ d' :: ds, x < 10 := fun x hx => h x (List.mem_cons_of_mem _ hx)
    obtain ⟨hrange', hvalue'⟩ := digit_char d' (htail d' List.mem_cons_self)
    rw [List.map_cons, digits, if_pos hrange, hvalue, ih d' (10 * acc + d) htail hrange' hvalue']
    rfl

/-- The decimal digits of a number: at least one, each below 10, of the number's value. -/
theorem decimalDigits_spec (fuel x : Nat) (h : x < fuel) : decimalDigits fuel x ≠ [] ∧
    (∀ d ∈ decimalDigits fuel x, d < 10) ∧ digitsValue 0 (decimalDigits fuel x) = x := by
  induction fuel generalizing x with
  | zero => omega
  | succ fuel ih =>
    rw [decimalDigits]
    split
    · next hx => simpa [digitsValue] using hx
    · next hx =>
      obtain ⟨-, hlt, hvalue⟩ := ih (x / 10) (by omega)
      refine ⟨by simp, fun d hd => ?_, ?_⟩
      · rcases List.mem_append.1 hd with hd | hd
        · exact hlt d hd
        · rw [List.mem_singleton.1 hd]
          exact Nat.mod_lt x (by omega)
      · rw [digitsValue] at hvalue ⊢
        rw [List.foldl_append, hvalue]
        exact Nat.div_add_mod x 10

theorem digits_decimal (x : Nat) :
    digits 0 ((decimalDigits (x + 1) x).map fun d => Char.ofNat (48 + d)) = some (x, []) := by
  obtain ⟨hne, hlt, hvalue⟩ := decimalDigits_spec (x + 1) x (Nat.lt_succ_self x)
  obtain ⟨d, ds, hcons⟩ := List.exists_cons_of_ne_nil hne
  rw [hcons] at hlt hvalue ⊢
  rw [digits_chars ds d 0 hlt, hvalue]

end Sys2Proof.Machine.Asm
end

section
/-! O60, the operands of a line and the line itself (spec/30_encoding.md R84). -/

namespace Sys2Proof.Machine.Asm

theorem codeword_row {t : List Char} (h : ∀ c ∈ t, c = '0' ∨ c = '1' ∨ c = ' ') (tail : List Char) :
    codeword (bracketed t ++ tail) = some ([rowValue t], tail) := by
  obtain ⟨c, cs, hspaces, hc⟩ := skipSpaces_chars h tail
  have hrow := rowBits_chars h tail
  have htext : bracketed t ++ tail = '[' :: (t ++ ']' :: tail) := by simp [bracketed]
  rw [htext, codeword, skipSpaces_of_ne (by decide)]
  simp [hspaces, hc, hrow]

theorem length_le_length_commas (t : List Char) (texts : List (List Char)) :
    texts.length ≤ (commas (t :: texts)).length := by
  induction texts generalizing t with
  | nil => exact Nat.zero_le _
  | cons u texts ih =>
    have ih := ih u
    simp only [commas, List.length_append, List.length_cons] at ih ⊢
    omega

theorem codeword_list {texts : List (List Char)} (hne : texts ≠ [])
    (h : ∀ t ∈ texts, ∀ c ∈ t, c = '0' ∨ c = '1' ∨ c = ' ') (tail : List Char) :
    codeword (bracketed (commas (texts.map bracketed)) ++ tail) = some (texts.map rowValue, tail) := by
  obtain ⟨t, texts, rfl⟩ := List.exists_cons_of_ne_nil hne
  have hlen : texts.length ≤ (commas ((t :: texts).map bracketed) ++ ']' :: tail).length := by
    have hcommas := length_le_length_commas (bracketed t) (texts.map bracketed)
    rw [List.length_map] at hcommas
    exact hcommas.trans (by simp)
  have hlist := rowList_bracketed texts t _ hlen h tail
  obtain ⟨cs, hcs⟩ : ∃ cs, commas ((t :: texts).map bracketed) ++ ']' :: tail = '[' :: cs := by
    cases texts <;> exact ⟨_, rfl⟩
  have htext : bracketed (commas ((t :: texts).map bracketed)) ++ tail =
      '[' :: (commas ((t :: texts).map bracketed) ++ ']' :: tail) := by simp [bracketed]
  rw [hcs] at hlist htext
  rw [htext, codeword, skipSpaces_of_ne (by decide)]
  simp only [skipSpaces_of_ne (show '[' ≠ ' ' by decide), hlist]

/-- Every text of a codeword reads back, up to its end. -/
theorem IsCodewordText.codeword_append {cw : List Char} {rows : List Vec} (h : IsCodewordText cw rows)
    (tail : List Char) : codeword (cw ++ tail) = some (rows, tail) := by
  rcases h with ⟨rfl, rfl⟩ | ⟨texts, hne, hchars, rfl, rfl | ⟨t, rfl, rfl⟩⟩
  · rfl
  · exact codeword_list hne hchars tail
  · exact codeword_row (hchars t (List.mem_singleton_self t)) tail

/-- A text of a codeword begins with no space. -/
theorem IsCodewordText.skipSpaces_append {cw : List Char} {rows : List Vec} (h : IsCodewordText cw rows)
    (tail : List Char) : skipSpaces (cw ++ tail) = cw ++ tail ∧ cw ≠ [] := by
  rcases h with ⟨rfl, rfl⟩ | ⟨texts, -, -, -, rfl | ⟨t, -, rfl⟩⟩
  · exact ⟨rfl, nofun⟩
  · exact ⟨skipSpaces_of_ne (by decide) _, nofun⟩
  · exact ⟨skipSpaces_of_ne (by decide) _, nofun⟩

/-- The bits of a row as the model writes them (`rowText`), without its brackets. -/
def rowChars (v : Vec) : List Char := v.map fun b => if b then '1' else '0'

theorem rowText_eq_bracketed (v : Vec) : rowText v = bracketed (rowChars v) := rfl

theorem mem_rowChars {v : Vec} : ∀ c ∈ rowChars v, c = '0' ∨ c = '1' ∨ c = ' ' := by
  intro c hc
  obtain ⟨b, -, rfl⟩ := List.mem_map.1 hc
  cases b <;> simp

theorem rowValue_rowChars (v : Vec) : rowValue (rowChars v) = v := by
  induction v with
  | nil => rfl
  | cons b v ih => cases b <;> simpa [rowChars, rowValue] using ih

theorem map_rowValue_rowChars (rows : List Vec) : (rows.map rowChars).map rowValue = rows := by
  rw [List.map_map, show rowValue ∘ rowChars = id from funext rowValue_rowChars, List.map_id]

/-- What the model writes for a codeword is a text of it. -/
theorem isCodewordText_codewordText (rows : List Vec) : IsCodewordText (codewordText rows) rows := by
  have hchars : ∀ t ∈ rows.map rowChars, ∀ c ∈ t, c = '0' ∨ c = '1' ∨ c = ' ' := List.forall_mem_map.2 fun _ _ =>
    mem_rowChars
  have hvalue : rows = (rows.map rowChars).map rowValue := (map_rowValue_rowChars rows).symm
  match rows with
  | [] => exact .inl ⟨rfl, rfl⟩
  | [v] => exact .inr ⟨[v].map rowChars, nofun, hchars, hvalue, .inr ⟨_, rfl, rfl⟩⟩
  | v :: u :: rows =>
    exact .inr ⟨(v :: u :: rows).map rowChars, nofun, hchars, hvalue, .inl (by rw [List.map_map]; rfl)⟩

theorem integer_integerText (x : Int) : integer (' ' :: integerText x) = some (x, []) := by
  have hdigits := digits_decimal x.natAbs
  obtain ⟨hne, hlt, -⟩ := decimalDigits_spec (x.natAbs + 1) x.natAbs (Nat.lt_succ_self _)
  rw [integer, skipSpaces_space, integerText]
  by_cases hx : x < 0
  · rw [if_pos hx, List.singleton_append, skipSpaces_of_ne (by decide)]
    simp [hdigits, abs_of_neg hx]
  · obtain ⟨d, ds, hcons⟩ := List.exists_cons_of_ne_nil hne
    have hd : ∀ d < 10, Char.ofNat (48 + d) ≠ ' ' ∧ Char.ofNat (48 + d) ≠ '-' := by decide
    obtain ⟨hspace, hminus⟩ := hd d (hlt d (hcons ▸ List.mem_cons_self))
    rw [hcons, List.map_cons] at hdigits
    rw [if_neg hx, List.nil_append, hcons, List.map_cons, skipSpaces_of_ne hspace]
    simp [hminus, hdigits, abs_of_nonneg (not_lt.1 hx)]

theorem IsCodewordText.codewordAndPos_withPosition {cw : List Char} {rows : List Vec} (h : IsCodewordText cw rows)
    (pos : Int) : codewordAndPos (withPosition cw pos) = some ((rows, pos), []) := by
  have htext : withPosition cw pos = cw ++ ',' :: ' ' :: integerText pos := List.append_assoc ..
  rw [htext, codewordAndPos, h.codeword_append]
  simp [skipSpaces_of_ne (show ',' ≠ ' ' by decide), integer_integerText]

theorem wordOperand_quoted {w : List Char} (h : ∀ c ∈ w, c ≠ '"' ∧ c.toNat < 256) :
    wordOperand ('"' :: w ++ ['"']) = some (w.map fun c => BitVec.ofNat 8 c.toNat, []) := by
  rw [List.cons_append, wordOperand, skipSpaces_of_ne (by decide)]
  exact quoted_chars h

theorem commas_byteTexts_head (b : Char8) (word : List Char8) :
    ∃ cs, commas ((b :: word).map byteText) = '0' :: cs := by
  cases word <;> exact ⟨_, rfl⟩

theorem wordOperand_wordText (word : List Char8) : wordOperand (wordText word) = some (word, []) := by
  cases word with
  | nil => rfl
  | cons b word =>
    have hlen := length_le_length_commas (byteText b) (word.map byteText)
    rw [List.length_map] at hlen
    have hcodes := codes_byteTexts word b _ hlen
    obtain ⟨cs, hcs⟩ := commas_byteTexts_head b word
    have htext : wordText (b :: word) = '0' :: cs := hcs
    rw [← List.map_cons, hcs] at hcodes
    rw [htext, wordOperand, skipSpaces_of_ne (by decide)]
    simpa using hcodes

/-- A word's text begins with a quote or a digit: with no space, and as no codeword does. -/
theorem wordText_head (word : List Char8) : ∃ cs, wordText word = '"' :: cs ∨ wordText word = '0' :: cs := by
  cases word with
  | nil => exact ⟨['"'], .inl rfl⟩
  | cons b word =>
    obtain ⟨cs, hcs⟩ := commas_byteTexts_head b word
    exact ⟨cs, .inr hcs⟩

theorem codeword_quote (cs : List Char) : codeword ('"' :: cs) = none := rfl

theorem codeword_zero (cs : List Char) : codeword ('0' :: cs) = none := rfl

section
variable {d : Desc} {cs : List Char}

theorem rawOperands_word {word : List Char8} (hne : skipSpaces cs ≠ []) (hcw : codeword cs = none)
    (h : wordOperand cs = some (word, [])) : rawOperands d cs = some { desc := d, word := word } := by
  simp [rawOperands, hne, codewordAndPos, hcw, h, atEnd]

theorem rawOperands_codeword {rows : List Vec} (hne : skipSpaces cs ≠ []) (h : codeword cs = some (rows, [])) :
    rawOperands d cs = some { desc := d, rows := rows } := by
  simp [rawOperands, hne, codewordAndPos, h, atEnd]

theorem rawOperands_position {rows : List Vec} {pos : Int} (hne : skipSpaces cs ≠ [])
    (h : codewordAndPos cs = some ((rows, pos), [])) :
    rawOperands d cs = some { desc := d, rows := rows, pos := pos } := by
  simp [rawOperands, hne, h, atEnd]

end

theorem rawOperands_wordText (d : Desc) (word : List Char8) :
    rawOperands d (' ' :: wordText word) = some { desc := d, word := word } := by
  have hword : wordOperand (' ' :: wordText word) = some (word, []) := wordOperand_wordText word
  obtain ⟨cs, hcs | hcs⟩ := wordText_head word <;> rw [hcs] at hword ⊢
  · exact rawOperands_word nofun (codeword_quote cs) hword
  · exact rawOperands_word nofun (codeword_zero cs) hword

section
variable {name : List Char}

theorem mnemonicText_chars (i : Instr) :
    mnemonicText i ≠ [] ∧ ∀ c ∈ mnemonicText i, (c.isAlpha || c == '.') = true := by
  cases i <;> simp [mnemonicText]

theorem mnemonic_mnemonicText {i : Instr} (h : name.map Char.toUpper = mnemonicText i) (operands : List Char) :
    mnemonic (skipSpaces (lineText name operands)) = (mnemonicText i, ' ' :: operands) :=
  mnemonic_lineText h (mnemonicText_chars i).1 (mnemonicText_chars i).2 operands

theorem parse_encode {word : List Char8} (h : name.map Char.toUpper = mnemonicText (.encode word))
    (operands : List Char) :
    parse (lineText name operands) = (atEnd (wordOperand operands)).map fun w => encode (.encode w) := by
  rw [parse, mnemonic_mnemonicText h]
  rfl

theorem parse_check {rows : List Vec} (h : name.map Char.toUpper = mnemonicText (.check rows))
    (operands : List Char) :
    parse (lineText name operands) = (atEnd (codeword operands)).map fun rows => encode (.check rows) := by
  rw [parse, mnemonic_mnemonicText h]
  rfl

theorem parse_correct {rows : List Vec} (h : name.map Char.toUpper = mnemonicText (.correct rows))
    (operands : List Char) :
    parse (lineText name operands) = (atEnd (codeword operands)).map fun rows => encode (.correct rows) := by
  rw [parse, mnemonic_mnemonicText h]
  rfl

theorem parse_decode {rows : List Vec} (h : name.map Char.toUpper = mnemonicText (.decode rows))
    (operands : List Char) :
    parse (lineText name operands) = (atEnd (codeword operands)).map fun rows => encode (.decode rows) := by
  rw [parse, mnemonic_mnemonicText h]
  rfl

theorem parse_bitflip {rows : List Vec} {pos : Int} (h : name.map Char.toUpper = mnemonicText (.bitflip rows pos))
    (operands : List Char) :
    parse (lineText name operands) =
      (atEnd (codewordAndPos operands)).map fun x => encode (.bitflip x.1 x.2) := by
  rw [parse, mnemonic_mnemonicText h]
  rfl

theorem parse_raw (h : name.map Char.toUpper = rawName) (d : Desc) (operands : List Char) :
    parse (rawText name d operands) = rawOperands d operands := by
  have hbyte : hexByte (skipSpaces (' ' :: (byteText d ++ operands))) = some (d, operands) := by simp
  have hname : mnemonic (skipSpaces (rawText name d operands)) = (rawName, ' ' :: (byteText d ++ operands)) :=
    mnemonic_lineText h nofun (by simp [rawName]) _
  rw [parse, hname]
  show (match hexByte (skipSpaces (' ' :: (byteText d ++ operands))) with
    | some (d, rest) => rawOperands d rest
    | none => none) = rawOperands d operands
  rw [hbyte]

end

/-- A line of CHECK, CORRECT or DECODE reads every text of its codeword. -/
theorem parse_codeword_request {cw name : List Char} {rows : List Vec} (h : IsCodewordText cw rows) {i : Instr}
    (hi : i = .check rows ∨ i = .correct rows ∨ i = .decode rows) (hname : name.map Char.toUpper = mnemonicText i) :
    parse (lineText name cw) = some (encode i) := by
  have hcw := h.codeword_append []
  rw [List.append_nil] at hcw
  rcases hi with rfl | rfl | rfl
  · rw [parse_check hname, hcw]; rfl
  · rw [parse_correct hname, hcw]; rfl
  · rw [parse_decode hname, hcw]; rfl

theorem parse_bitflip_request {cw name : List Char} {rows : List Vec} (h : IsCodewordText cw rows) {pos : Int}
    (hname : name.map Char.toUpper = mnemonicText (.bitflip rows pos)) :
    parse (lineText name (withPosition cw pos)) = some (encode (.bitflip rows pos)) := by
  rw [parse_bitflip hname, h.codewordAndPos_withPosition]
  rfl

/-- The line of every instruction reads back. -/
theorem parse_operandText {i : Instr} {name : List Char} (hname : name.map Char.toUpper = mnemonicText i) :
    parse (lineText name (operandText i)) = some (encode i) := by
  cases i with
  | encode word => rw [parse_encode hname, operandText, wordOperand_wordText]; rfl
  | check rows => exact parse_codeword_request (isCodewordText_codewordText rows) (.inl rfl) hname
  | correct rows => exact parse_codeword_request (isCodewordText_codewordText rows) (.inr (.inl rfl)) hname
  | decode rows => exact parse_codeword_request (isCodewordText_codewordText rows) (.inr (.inr rfl)) hname
  | bitflip rows pos => exact parse_bitflip_request (isCodewordText_codewordText rows) hname

theorem parse_raw_codeword {cw name : List Char} {rows : List Vec} (h : IsCodewordText cw rows)
    (hname : name.map Char.toUpper = rawName) (d : Desc) :
    parse (rawText name d (' ' :: cw)) = some { desc := d, rows := rows } := by
  have hcw := h.codeword_append []
  obtain ⟨hspaces, hne⟩ := h.skipSpaces_append []
  rw [List.append_nil] at hcw hspaces
  rw [parse_raw hname]
  exact rawOperands_codeword (by rwa [skipSpaces_space, hspaces]) hcw

theorem parse_raw_position {cw name : List Char} {rows : List Vec} (h : IsCodewordText cw rows)
    (hname : name.map Char.toUpper = rawName) (d : Desc) (pos : Int) :
    parse (rawText name d (' ' :: withPosition cw pos)) = some { desc := d, rows := rows, pos := pos } := by
  obtain ⟨hspaces, hne⟩ := h.skipSpaces_append (',' :: ' ' :: integerText pos)
  have htext : withPosition cw pos = cw ++ ',' :: ' ' :: integerText pos := List.append_assoc ..
  rw [parse_raw hname]
  refine rawOperands_position ?_ (h.codewordAndPos_withPosition pos)
  rw [skipSpaces_space, htext, hspaces]
  exact List.append_ne_nil_of_left_ne_nil hne _

/-- Settles O60, form by form. -/
theorem assemblerReadsOperandsInOrder : Obligations.AssemblerReadsOperandsInOrder := by
  refine ⟨fun i name => parse_operandText, fun w name word hw hword => ⟨fun hname => ?_, fun hname d => ?_⟩,
    fun cw name rows hcw => ⟨fun i => parse_codeword_request hcw, fun pos => parse_bitflip_request hcw,
      fun hname d pos => ⟨parse_raw_codeword hcw hname d, parse_raw_position hcw hname d pos⟩⟩,
    fun d name word hname => ⟨?_, ?_⟩⟩
  · rw [parse_encode hname, wordOperand_quoted hw, hword]
    rfl
  · rw [parse_raw hname, hword]
    exact rawOperands_word nofun (codeword_quote (w ++ ['"'])) (wordOperand_quoted hw)
  · rw [parse_raw hname]
    rfl
  · rw [parse_raw hname, rawOperands_wordText]

end Sys2Proof.Machine.Asm
end
